-- ==== Sys2Proof/Word.lean ====
section
/-! DEFINITION. The word types of the block and their plainest arithmetic (00_scope.md R8, R9). -/

namespace Sys2Proof

/-- Every operand, result, key and ciphertext register: 64 bits, read as an unsigned number (R7, R8). -/
abbrev Word := BitVec 64

/-- An entry of `MSG_BUF`, an opcode or an error code: 8 bits. -/
abbrev Byte := BitVec 8

/-- A byte offset of the host register interface: 18 bits (20_memory.md R60). -/
abbrev Offset := BitVec 18

/-- The 64-bit register value of an exact number (R8: no value the block stores reaches 2^64). -/
def wordOf (n : Nat) : Word := BitVec.ofNat 64 n

/-- A one-bit value as a number, for composing register words (R9 `zext_N`). -/
def bitNat (b : Bool) : Nat := if b then 1 else 0

end Sys2Proof
end

