-- ==== Sys2Proof/Config.lean ====
section
/-! DEFINITION. What an instance of the hardware fixes (00_scope.md R7) and the free values the spec leaves open
(93_implementation_defined.md I2, I3). -/

namespace Sys2Proof

/-- The two OPEN parameters of R7, stored so that no value outside the range R7 allows can be written down:
MSG_MAX is `msgMaxPred + 1` in 1 to 8192, KEYGEN_MAX_DRAWS is `maxDrawsPred + 2` in 2 to 2^32 − 1. -/
structure Params where
  msgMaxPred   : Fin 8192
  maxDrawsPred : Fin 4294967294
  deriving DecidableEq, Repr

/-- MSG_MAX, the capacity of each buffer in entries (R7, R22). -/
def Params.msgMax (p : Params) : Nat := p.msgMaxPred.val + 1

/-- KEYGEN_MAX_DRAWS, the most draws one `KEYGEN_RAND` may consume (R7, R22). -/
def Params.maxDraws (p : Params) : Nat := p.maxDrawsPred.val + 2

namespace Config

/-- OPEN (R7, I11): MSG_MAX less one. No body: no proof can see the value. DESIGN CHOICE of form, safe (A2). -/
opaque msgMaxPred : Fin 8192

/-- OPEN (R7, I12): KEYGEN_MAX_DRAWS less two. No body. DESIGN CHOICE of form, safe (A2). -/
opaque maxDrawsPred : Fin 4294967294

/-- The parameters of the instance that `State.reset` describes (R22). -/
def params : Params := ⟨msgMaxPred, maxDrawsPred⟩

/-- FREE VALUES: one 64-bit value for each number of the state's counter `freeCtr`, under no law. Used for the
UNSPECIFIED buffer reads of 20_memory.md R68 (I3) and the latches a reset step leaves UNSPECIFIED (R230, I2).
No body. Safe (A4). -/
opaque freeWord : Nat → Word

/-- `ID` (R2, R21): the ASCII text "RSA_CORE", most significant byte first. -/
def idValue : Word := 0x5253415F434F5245#64

/-- PRIME_LO, the lowest value a draw may have (R7). -/
abbrev primeLo : Nat := 100

/-- PRIME_HI, the highest value a draw may have (R7). -/
abbrev primeHi : Nat := 1000

/-- MODULUS_MIN_EXCL: a key is rejected when n is at most this (R7). -/
abbrev modulusMinExcl : Nat := 255

/-- E_START, the first candidate public exponent (R7). -/
abbrev eStart : Nat := 3

/-- E_STEP, the increment of the exponent scan (R7, 90_conflicts.md C1). -/
abbrev eStep : Nat := 1

/-- FORCED_PRIME_BITS: a forced prime is below 2^this (R7). -/
abbrev forcedPrimeBits : Nat := 32

end Config

end Sys2Proof
end

