-- ==== Sys2Proof/Syntax.lean ====
section
/-! DEFINITION. The nine commands of the opcode map (30_encoding.md R83), one constructor per row of
spec/opcode_table.json. A command carries no operand fields (R80). -/

namespace Sys2Proof

/-- A command of the block (R83). Its operands come from latches, key registers and buffers (R81). -/
inductive Instr
  /-- `NOP`, 40_host_access.md R106. -/
  | nop
  /-- `PRIME_TEST`, 41_primality.md R131. -/
  | primeTest
  /-- `GCD`, 42_number_theory.md R141. -/
  | gcd
  /-- `MODINV`, 42_number_theory.md R146. -/
  | modinv
  /-- `MODEXP`, 43_modexp.md R161. -/
  | modexp
  /-- `KEYGEN_RAND`, 44_keygen.md R171. -/
  | keygenRand
  /-- `KEYGEN_FORCED`, 44_keygen.md R175. -/
  | keygenForced
  /-- `ENCRYPT`, 45_cipher.md R191. -/
  | encrypt
  /-- `DECRYPT`, 45_cipher.md R192. -/
  | decrypt
  deriving DecidableEq, Repr

end Sys2Proof
end

