-- ==== Sys2Proof/WellFormed.lean ====
section
/-! DEFINITION. Well-formedness. A command has no operand fields (30_encoding.md R80, R81), so every term of `Instr` is
well formed; the checks the encoding does make are on the command WORD (R82, R84). -/

namespace Sys2Proof

/-- `w[63:8] = 0`: the reserved field of R80 is zero. -/
def CommandWord.reservedClear (w : Word) : Bool := w.extractLsb' 8 56 == 0#56

/-- `w[7:0]` selects a row of R83: the rows are the opcodes 0x00 to 0x08, and 0x09 to 0xFF have none (R82, R84). -/
def CommandWord.opcodeAssigned (w : Word) : Bool := (w.extractLsb' 0 8).toNat < 9

/-- The words that are commands (R82): both checks hold. -/
def CommandWord.wf (w : Word) : Bool := CommandWord.reservedClear w && CommandWord.opcodeAssigned w

/-- Every command is well formed: R80 gives it no register number and no immediate that could be out of range. -/
def Instr.wf : Instr → Bool
  | .nop => true
  | .primeTest => true
  | .gcd => true
  | .modinv => true
  | .modexp => true
  | .keygenRand => true
  | .keygenForced => true
  | .encrypt => true
  | .decrypt => true

end Sys2Proof
end

