-- ==== Sys2Proof/Decode.lean ====
section
/-! DEFINITION. Decoding of an accepted command word (30_encoding.md R82, R83), total on every 64-bit word and naming
why a word is illegal, and the encoder (the command words of R83). -/

namespace Sys2Proof

/-- Why a word is illegal (R82 steps 1 and 3, R84). -/
inductive IllegalWord
  /-- `w[63:8] ≠ 0`, whatever the opcode (R82 step 1). -/
  | reservedBits
  /-- `w[63:8] = 0` and the opcode has no row: 0x09 to 0xFF (R82 step 3). -/
  | unassignedOpcode
  deriving DecidableEq, Repr

/-- What a command word is: one of the nine commands, or illegal for a named reason (R82). -/
inductive Decoded
  | command (i : Instr)
  | illegal (why : IllegalWord)
  deriving DecidableEq, Repr

/-- The field `OPCODE`, bits [7:0] (R80). -/
def opcodeField (w : Word) : Byte := w.extractLsb' 0 8

/-- The field `RSVD`, bits [63:8] (R80). -/
def reservedField (w : Word) : BitVec 56 := w.extractLsb' 8 56

/-- The row of R83 an opcode selects. -/
def decodeOpcode (op : Byte) : Decoded :=
  match op.toNat with
  | 0 => .command .nop
  | 1 => .command .primeTest
  | 2 => .command .gcd
  | 3 => .command .modinv
  | 4 => .command .modexp
  | 5 => .command .keygenRand
  | 6 => .command .keygenForced
  | 7 => .command .encrypt
  | 8 => .command .decrypt
  | _ => .illegal .unassignedOpcode

/-- Decoding in the order of R82. -/
def decode (w : Word) : Decoded :=
  if reservedField w ≠ 0#56 then .illegal .reservedBits else decodeOpcode (opcodeField w)

/-- The full 64-bit command word of each command (R83). -/
def encode : Instr → Word
  | .nop          => 0x0000000000000000#64
  | .primeTest    => 0x0000000000000001#64
  | .gcd          => 0x0000000000000002#64
  | .modinv       => 0x0000000000000003#64
  | .modexp       => 0x0000000000000004#64
  | .keygenRand   => 0x0000000000000005#64
  | .keygenForced => 0x0000000000000006#64
  | .encrypt      => 0x0000000000000007#64
  | .decrypt      => 0x0000000000000008#64

/-- The command word whose bits, numbered as the opcode table numbers them, are the low `nbits` bits of `w`. A command
is ONE 64-bit transfer (R60, R85) and no byte order is observable (20_memory.md R64), so the table's number is the
word itself (A13). -/
def tableWord (nbits w : Nat) : Word := wordOf (w % 2 ^ nbits)

/-- The command the decoder reads from the table's bits; none where the word is illegal, or longer than 64 bits. -/
def decodeTableWord (nbits w : Nat) : Option Instr :=
  if w % 2 ^ nbits < 2 ^ 64 then
    match decode (tableWord nbits w) with
    | .command i => some i
    | .illegal _ => none
  else none

end Sys2Proof
end

