-- ==== Sys2Proof/Machine/State.lean ====
section
/-! DEFINITION. The state of the block (10_state.md), the reasons a step can stop, the outside events a state holds, and
the state after reset (70_reset_and_hazards.md R230, R232). -/

namespace Sys2Proof.Machine

/-- The outcome codes of 60_exceptions.md R200. "No other value is ever written": there is no other constructor. -/
inductive ErrCode
  | ok | badCmd | divZero | notCoprime | modulusTooSmall | noCoprimeExponent | drawsExhausted | rngRange
  | badForcedPrimes | noKey | msgLen
  deriving DecidableEq, Repr

/-- The sequencer state `SEQ` (10_state.md R42). -/
inductive Seq
  | idle | run
  deriving DecidableEq, Repr

/-- The three buffers (R38 to R40). -/
inductive BufName
  | msg | ct | dec
  deriving DecidableEq, Repr

/-- Why a step stops. Every fault leaves no next state; the spec states each as a fault of the model. -/
inductive Fault
  /-- Raised by a host access whose offset has `off[2:0] ≠ 0` (20_memory.md R61, I14). Safe: the hardware answers with an
  error response and goes on with its state unchanged (A9). -/
  | hostMisaligned (off : Offset)
  /-- Raised by a host access to an aligned offset that is not mapped (20_memory.md R63, I14). Safe, as above (A9). -/
  | hostUnmapped (off : Offset)
  /-- Raised by a host read, by `ENCRYPT` (of `MSG_BUF`) or by `DECRYPT` (of `CT_BUF`) that reads an entry nothing has
  written since reset (10_state.md R48, I1). Safe: the hardware returns some value no rule fixes (A8). -/
  | unwrittenRead (buf : BufName) (i : Nat)
  deriving DecidableEq, Repr

/-- Why a step is refused. -/
inductive Refusal
  /-- Raised by `exec` for a command that has no meaning yet; this model has none such. Safe. -/
  | notModelled (mnemonic : String)
  deriving DecidableEq, Repr

/-- `STATUS` (R24) without `ERR`, which "is not separate storage" (R27). -/
structure Status where
  busy     : Bool
  done     : Bool
  keyValid : Bool
  ovr      : Bool
  errcode  : ErrCode
  lastOp   : Byte
  deriving DecidableEq, Repr

/-- The six key registers (R43). -/
structure KeyRegs where
  p   : Word
  q   : Word
  n   : Word
  phi : Word
  e   : Word
  d   : Word
  deriving DecidableEq, Repr

/-- The three buffers, each the list of its WRITTEN entries (index, value), indexes strictly rising; an entry that is not
listed holds no value (R48, A8). -/
structure Memory where
  msg : List Host.Cell
  ct  : List (Nat × Word)
  dec : List (Nat × Word)
  deriving DecidableEq, Repr

/-- The hidden latches of R41: `LA`, `LB`, `LC`, `LLEN`, `LOP`, `LW`. -/
structure Latches where
  la   : Word
  lb   : Word
  lc   : Word
  llen : Word
  lop  : Byte
  lw   : Word
  deriving DecidableEq, Repr

/-- One host access: a 64-bit read or write at an 18-bit byte offset (20_memory.md R60). -/
inductive Access
  | read (off : Offset)
  | write (off : Offset) (v : Word)
  deriving DecidableEq, Repr

/-- One atomic step of an agent (70_reset_and_hazards.md R249). -/
inductive Event
  /-- The host makes one access (R100 to R105); a soft reset is a write (R231). -/
  | host (a : Access)
  /-- The sequencer takes its turn (R104). -/
  | sequencer
  /-- The random source answers the draw that is asked for (44_keygen.md R172). -/
  | rngAnswer (v : Word)
  /-- The platform asserts the hard reset (R230). -/
  | hardReset
  deriving DecidableEq, Repr

/-- The state of the block (10_state.md). The last three fields are the MODEL'S own: the value the last host read
answered (A5), the counter of free values (A4), and what the agents will do next (A1). -/
structure State where
  /-- `CFG` (R22): the two OPEN parameters. -/
  cfg        : Params
  /-- `CTRL.IRQ_EN` (R23). -/
  irqEn      : Bool
  /-- `STATUS` (R24). -/
  status     : Status
  /-- `IRQ_STATUS.DONE_PEND` (R32). -/
  donePend   : Bool
  /-- `CMD`: the last accepted command word (R33). -/
  cmd        : Word
  /-- `OPA` (R34). -/
  opa        : Word
  /-- `OPB` (R34). -/
  opb        : Word
  /-- `OPC` (R34). -/
  opc        : Word
  /-- `RES` (R35). -/
  res        : Word
  /-- `MSG_LEN` (R36). -/
  msgLen     : Word
  /-- `DRAWS` (R37). -/
  draws      : Word
  /-- `KEY_P` to `KEY_D` (R43). -/
  keys       : KeyRegs
  /-- `MSG_BUF`, `CT_BUF`, `DEC_BUF` (R38 to R40, R48). -/
  mem        : Memory
  /-- The hidden latches (R41). -/
  latch      : Latches
  /-- `SEQ` (R42). -/
  seq        : Seq
  /-- The answers the `KEYGEN_RAND` in flight has received, oldest first (R47, R172; A6). -/
  rngAnswers : List Word
  /-- Model's own: the value the last host access read (R100), none for a write (A5). -/
  busResp    : Option Word
  /-- Model's own: the number of the next free value (A4). -/
  freeCtr    : Nat
  /-- Model's own: the steps the agents take next, oldest first (R249, A1). -/
  inputs     : List Event
  deriving DecidableEq, Repr

/-- `STATUS` after either reset (R232). -/
def Status.reset : Status := ⟨false, false, false, false, .ok, 0#8⟩

/-- The key registers after either reset, and after a violated forced-prime check (R43, R176). -/
def KeyRegs.zero : KeyRegs := ⟨0#64, 0#64, 0#64, 0#64, 0#64, 0#64⟩

/-- No entry of any buffer is written (R48, R230). -/
def Memory.empty : Memory := ⟨[], [], []⟩

/-- DESIGN CHOICE, unsafe (A3): the spec leaves the latches UNSPECIFIED after reset; the model names zero for
`State.reset`. No rule reads them before an acceptance writes them (R41). -/
def Latches.zero : Latches := ⟨0#64, 0#64, 0#64, 0#64, 0#8, 0#64⟩

/-- The machine right after the hard reset (R230, R232, R233): every register at the value of R20's "reset" column, idle,
nothing pending, every buffer entry unwritten. -/
def State.reset : State where
  cfg        := Config.params
  irqEn      := false
  status     := Status.reset
  donePend   := false
  cmd        := 0#64
  opa        := 0#64
  opb        := 0#64
  opc        := 0#64
  res        := 0#64
  msgLen     := 0#64
  draws      := 0#64
  keys       := KeyRegs.zero
  mem        := Memory.empty
  latch      := Latches.zero
  seq        := .idle
  rngAnswers := []
  busResp    := none
  freeCtr    := 0
  inputs     := []

end Sys2Proof.Machine
end

