-- ==== Sys2Proof/Machine/Operands.lean ====
section
/-! DEFINITION. Where a command takes its operands (30_encoding.md R81): the latched copies of the operand registers, the
key registers and the buffers; never the live registers and never the command word. Each is an unsigned number (R8). -/

namespace Sys2Proof.Machine

/-- `LA`, the latched `OPA` (R41, R81). -/
abbrev State.opndA (s : State) : Nat := s.latch.la.toNat

/-- `LB`, the latched `OPB` (R41, R81). -/
abbrev State.opndB (s : State) : Nat := s.latch.lb.toNat

/-- `LC`, the latched `OPC` (R41, R81). -/
abbrev State.opndC (s : State) : Nat := s.latch.lc.toNat

/-- `LLEN`, the latched `MSG_LEN` (R36, R41). -/
abbrev State.opndLen (s : State) : Nat := s.latch.llen.toNat

/-- `KEY_E` as a cipher operand (R191). -/
abbrev State.opndKeyE (s : State) : Nat := s.keys.e.toNat

/-- `KEY_D` as a cipher operand (R192). -/
abbrev State.opndKeyD (s : State) : Nat := s.keys.d.toNat

/-- `KEY_N` as a cipher operand (R191, R192). -/
abbrev State.opndKeyN (s : State) : Nat := s.keys.n.toNat

end Sys2Proof.Machine
end

