-- ==== Sys2Proof/Machine/Ops.lean ====
section
/-! DEFINITION. The named operations over the state that the meanings and the host's accesses share: the buffers, command
acceptance and completion (40_host_access.md R103 to R105), the error completion, which is the block's only analogue of
taking an exception (60_exceptions.md R202, R206), its acknowledgement (R207), and the resets (70 R230, R231). -/

namespace Sys2Proof.Machine

/-! ## Buffers -/

/-- Entry `i` of a buffer: none where nothing has written it since reset (R48). -/
def bufGet {α : Type} : List (Nat × α) → Nat → Option α
  | [], _ => none
  | (k, x) :: rest, i => if k = i then some x else bufGet rest i

/-- Write entry `i`, keeping the indexes strictly rising. -/
def bufSet {α : Type} : List (Nat × α) → Nat → α → List (Nat × α)
  | [], i, v => [(i, v)]
  | (k, x) :: rest, i, v =>
    if i < k then (i, v) :: (k, x) :: rest
    else if i = k then (i, v) :: rest
    else (k, x) :: bufSet rest i v

/-- Entries `0` to `n − 1` become unwritten (R231). -/
def bufForget {α : Type} : List (Nat × α) → Nat → List (Nat × α)
  | [], _ => []
  | (k, x) :: rest, n => if k < n then bufForget rest n else (k, x) :: bufForget rest n

/-- The canonical form of a buffer: indexes strictly rising, so equal buffers are equal lists. -/
abbrev bufSorted {α : Type} (b : List (Nat × α)) : Prop := b.Pairwise (fun x y => x.1 < y.1)

/-- Every written entry lies in the buffer's capacity (R38 to R40: `0 ≤ i < MSG_MAX`). -/
abbrev bufBelow {α : Type} (b : List (Nat × α)) (cap : Nat) : Prop := ∀ x ∈ b, x.1 < cap

/-- The canonical form of the three buffers. -/
abbrev Memory.wf (m : Memory) : Prop := bufSorted m.msg ∧ bufSorted m.ct ∧ bufSorted m.dec

/-- Every written entry of the three buffers lies below MSG_MAX. -/
abbrev Memory.inRange (m : Memory) (cap : Nat) : Prop :=
  bufBelow m.msg cap ∧ bufBelow m.ct cap ∧ bufBelow m.dec cap

/-- Store entry `i` of `MSG_BUF` (R38). -/
def State.storeMsg (s : State) (i : Nat) (v : Byte) : State :=
  { s with mem := { s.mem with msg := bufSet s.mem.msg i v } }

/-- Store entry `i` of `CT_BUF` (R39). -/
def State.storeCt (s : State) (i : Nat) (v : Word) : State :=
  { s with mem := { s.mem with ct := bufSet s.mem.ct i v } }

/-! ## Command acceptance and completion -/

/-- Acceptance `Accept(w)` (R103, R41). The draws of an earlier command are gone (R171: `draws <- 0`). `KEY_VALID`,
`DONE_PEND`, `RES`, the key registers and the buffers are not changed. -/
def State.accept (s : State) (w : Word) : State :=
  { s with
    cmd        := w
    latch      := ⟨s.opa, s.opb, s.opc, s.msgLen, w.extractLsb' 0 8, w⟩
    status     := { s.status with
                    lastOp := w.extractLsb' 0 8, errcode := .ok, done := false, ovr := false, busy := true }
    seq        := .run
    rngAnswers := [] }

/-- Overrun `Overrun()` (R105): only `STATUS.OVR` changes. -/
def State.overrun (s : State) : State := { s with status := { s.status with ovr := true } }

/-- The end of every command (R104): the outcome code, `BUSY`, `SEQ`, `DONE` and `DONE_PEND`. The draws received are no
longer held (R47: "internal until completion"). -/
def State.complete (s : State) (code : ErrCode) : State :=
  { s with
    status     := { s.status with errcode := code, busy := false, done := true }
    seq        := .idle
    donePend   := true
    rngAnswers := [] }

/-- `raise Err(CODE)` (00_scope.md R9, 60_exceptions.md R202): the analogue of taking an exception (R206). It ends the
command, writes nothing of its results and records the outcome in `STATUS` and `DONE_PEND`. -/
def State.raiseErr (s : State) (code : ErrCode) : State := s.complete code

/-- The host's acknowledgement of a completion, a write of 1 to `IRQ_STATUS.DONE_PEND` (R32, R207): the analogue of the
return; nothing else changes. -/
def State.acknowledge (s : State) : State := { s with donePend := false }

/-- `RES <- v; complete(OK)`: the successful end of `PRIME_TEST`, `GCD`, `MODINV` and `MODEXP` (R35). -/
def State.completeRes (s : State) (v : Word) : State := State.complete { s with res := v } .ok

/-- `Succeed` (44_keygen.md R177): all six key registers, `DRAWS` and `KEY_VALID` in the completion step. -/
def State.keySucceed (s : State) (drawn : Nat) (k : KeyRegs) : State :=
  State.complete
    { s with keys := k, draws := wordOf drawn, status := { s.status with keyValid := true } } .ok

/-- `Fail` (44_keygen.md R178): `k` holds the values computed before the failure and 0 for the others; `KEY_E` and `KEY_D`
become 0 and the key is invalid. -/
def State.keyFail (s : State) (code : ErrCode) (drawn : Nat) (k : KeyRegs) : State :=
  State.raiseErr
    { s with
      keys   := { k with e := 0#64, d := 0#64 }
      draws  := wordOf drawn
      status := { s.status with keyValid := false } } code

/-- The command in flight is `i`: `STATUS.BUSY` = 1 and the whole latched word decodes to `i` (R68, R231; A10). -/
def State.inFlight (s : State) (i : Instr) : Bool :=
  s.status.busy && decide (decode s.latch.lw = .command i)

/-! ## Answers of the host interface -/

/-- A host read answers `v` (R100). -/
def State.respond (s : State) (v : Word) : State := { s with busResp := some v }

/-- A host read answers an UNSPECIFIED value (R68, I3): the next free value. -/
def State.respondFree (s : State) : State :=
  { s with busResp := some (Config.freeWord s.freeCtr), freeCtr := s.freeCtr + 1 }

/-! ## Resets -/

/-- The latches a reset step leaves UNSPECIFIED (R230, I2): six free values (A3). -/
def freeLatches (k : Nat) : Latches :=
  ⟨Config.freeWord k, Config.freeWord (k + 1), Config.freeWord (k + 2), Config.freeWord (k + 3),
    (Config.freeWord (k + 4)).extractLsb' 0 8, Config.freeWord (k + 5)⟩

/-- What both resets do to the registers, the sequencer, the latches and the random source (R230, R231). The buffers
become `m`; `CFG` is a constant; the agents' coming steps are theirs. -/
def State.resetRegisters (s : State) (m : Memory) : State :=
  { State.reset with
    cfg     := s.cfg
    mem     := m
    latch   := freeLatches s.freeCtr
    freeCtr := s.freeCtr + 6
    inputs  := s.inputs }

/-- The hard reset (R230): every buffer entry becomes unwritten. -/
def State.hardReset (s : State) : State := s.resetRegisters Memory.empty

/-- The buffers after a soft reset (R231): kept, but the output entries `0` to `LLEN − 1` of an abandoned cipher command
become unwritten (A11). -/
def State.softResetMemory (s : State) : Memory :=
  if s.inFlight .encrypt then { s.mem with ct := bufForget s.mem.ct s.latch.llen.toNat }
  else if s.inFlight .decrypt then { s.mem with dec := bufForget s.mem.dec s.latch.llen.toNat }
  else s.mem

/-- The soft reset (R231). -/
def State.softReset (s : State) : State := s.resetRegisters s.softResetMemory

end Sys2Proof.Machine
end

