-- ==== Sys2Proof/Machine/ModExp.lean ====
section
/-! DEFINITION. The modular exponentiator (43_modexp.md): binary square and multiply, and the command `MODEXP`. -/

namespace Sys2Proof.Machine

/-- The loop of R160, products exact. The first argument bounds the passes; `x` are always enough (A14). The
accumulator starts at 1 and is not reduced, so `x = 0` gives 1 for every modulus (R162, 90_conflicts.md C3). -/
def modExpLoop : Nat → Nat → Nat → Nat → Nat → Nat
  | 0, _, _, _, acc => acc
  | fuel + 1, b, x, m, acc =>
    if x = 0 then acc
    else modExpLoop fuel (b * b % m) (x / 2) m (if x % 2 = 1 then acc * b % m else acc)

/-- `ModExpValue(b, x, m)` (R160), for `m ≥ 1`. -/
def modExpValue (b x m : Nat) : Nat := modExpLoop x (b % m) x m 1

/-- `MODEXP` (R161). -/
def execModexp (s : State) : Host.Outcome State Fault Refusal :=
  if s.opndC = 0 then .next (s.raiseErr .divZero)
  else .next (s.completeRes (wordOf (modExpValue s.opndA s.opndB s.opndC)))

end Sys2Proof.Machine
end

