-- ==== Sys2Proof/Machine/Cipher.lean ====
section
/-! DEFINITION. The byte-sequential cipher (45_cipher.md): the commands `ENCRYPT` and `DECRYPT`. -/

namespace Sys2Proof.Machine

/-- The byte loop of R191: `k` entries from index `i` on, ascending (R190). An unwritten `MSG_BUF` entry is the fault of
R48. -/
def encryptLoop (msg : List Host.Cell) (e n : Nat) : Nat → Nat → List (Nat × Word) → Except Fault (List (Nat × Word))
  | 0, _, ct => .ok ct
  | k + 1, i, ct =>
    match bufGet msg i with
    | none   => .error (.unwrittenRead .msg i)
    | some b => encryptLoop msg e n k (i + 1) (bufSet ct i (wordOf (modExpValue b.toNat e n)))

/-- The loop of R192: `k` entries from index `i` on, ascending. An unwritten `CT_BUF` entry is the fault of R48. -/
def decryptLoop (ct : List (Nat × Word)) (d n : Nat) : Nat → Nat → List (Nat × Word) → Except Fault (List (Nat × Word))
  | 0, _, out => .ok out
  | k + 1, i, out =>
    match bufGet ct i with
    | none   => .error (.unwrittenRead .ct i)
    | some c => decryptLoop ct d n k (i + 1) (bufSet out i (wordOf (modExpValue c.toNat d n)))

/-- `ENCRYPT` (R191), with the checks in the order of R193. -/
def execEncrypt (s : State) : Host.Outcome State Fault Refusal :=
  if s.status.keyValid = false then .next (s.raiseErr .noKey)
  else if s.cfg.msgMax < s.opndLen then .next (s.raiseErr .msgLen)
  else
    match encryptLoop s.mem.msg s.opndKeyE s.opndKeyN s.opndLen 0 s.mem.ct with
    | .error f => .fault f
    | .ok ct   => .next (State.complete { s with mem := { s.mem with ct := ct } } .ok)

/-- `DECRYPT` (R192), with the checks in the order of R193. -/
def execDecrypt (s : State) : Host.Outcome State Fault Refusal :=
  if s.status.keyValid = false then .next (s.raiseErr .noKey)
  else if s.cfg.msgMax < s.opndLen then .next (s.raiseErr .msgLen)
  else
    match decryptLoop s.mem.ct s.opndKeyD s.opndKeyN s.opndLen 0 s.mem.dec with
    | .error f => .fault f
    | .ok dec  => .next (State.complete { s with mem := { s.mem with dec := dec } } .ok)

end Sys2Proof.Machine
end

