-- ==== Sys2Proof/Machine/NumberTheory.lean ====
section
/-! DEFINITION. The number theory kernel (42_number_theory.md): Euclid's algorithm, the modular inverse, and the commands
`GCD` and `MODINV`. -/

namespace Sys2Proof.Machine

/-- The loop of R140. The first argument bounds the passes; `b + 1` are always enough (A14). -/
def gcdLoop : Nat → Nat → Nat → Nat
  | 0, a, _ => a
  | fuel + 1, a, b => if b = 0 then a else gcdLoop fuel b (a % b)

/-- `Gcd(a, b)` (R140). -/
def gcdValue (a b : Nat) : Nat := gcdLoop (b + 1) a b

/-- The loop of R145, answering the coefficient `old_s`, with coefficients in ℤ. The first argument bounds the passes;
`r + 1` are always enough (A14). -/
def inverseLoop : Nat → Nat → Nat → Int → Int → Int
  | 0, _, _, oldS, _ => oldS
  | fuel + 1, oldR, r, oldS, s =>
    if r = 0 then oldS
    else inverseLoop fuel r (oldR - oldR / r * r) s (oldS - (oldR / r : Nat) * s)

/-- `ModInvValue(e, φ)` (R145): the coefficient, with φ added when it is negative. -/
def modInvValue (e phi : Nat) : Nat :=
  let d := inverseLoop (phi + 1) e phi 1 0
  if d < 0 then (d + phi).toNat else d.toNat

/-- `GCD` (R141). -/
def execGcd (s : State) : Host.Outcome State Fault Refusal :=
  .next (s.completeRes (wordOf (gcdValue s.opndA s.opndB)))

/-- `MODINV` (R146), with the checks in the order of R147. -/
def execModinv (s : State) : Host.Outcome State Fault Refusal :=
  if s.opndB = 1 then .next (s.completeRes 0#64)
  else if s.opndB = 0 then .next (s.raiseErr .divZero)
  else if gcdValue s.opndA s.opndB ≠ 1 then .next (s.raiseErr .notCoprime)
  else .next (s.completeRes (wordOf (modInvValue s.opndA s.opndB)))

end Sys2Proof.Machine
end

