-- ==== Sys2Proof/Machine/Primality.lean ====
section
/-! DEFINITION. The primality tester (41_primality.md): trial division and the command `PRIME_TEST`. -/

namespace Sys2Proof.Machine

/-- The loop of R130 from the odd divisor `d` on: `d ≤ isqrt(n)` is the exact test `d·d ≤ n` (R133). The first argument
bounds the passes; `n` passes are always enough (A14). -/
def trialLoop : Nat → Nat → Nat → Bool
  | 0, _, _ => true
  | fuel + 1, n, d =>
    if d * d ≤ n then (if n % d = 0 then false else trialLoop fuel n (d + 2)) else true

/-- `IsPrime(n)` (R130). -/
def isPrime (n : Nat) : Bool :=
  if n ≤ 1 then false
  else if n = 2 then true
  else if n % 2 = 0 then false
  else trialLoop n n 3

/-- `PRIME_TEST` (R131). -/
def execPrimeTest (s : State) : Host.Outcome State Fault Refusal :=
  .next (s.completeRes (wordOf (bitNat (isPrime s.opndA))))

end Sys2Proof.Machine
end

