-- ==== Sys2Proof/Machine/KeyGen.lean ====
section
/-! DEFINITION. The key generation pipeline (44_keygen.md): the draw loops, the shared tail, the commands `KEYGEN_RAND`
and `KEYGEN_FORCED`, and the random source's answer. -/

namespace Sys2Proof.Machine

/-- The key registers as a failure leaves them (R178): the values computed before it, 0 for the others. -/
def partialKey (p q n phi : Nat) : KeyRegs := ⟨wordOf p, wordOf q, wordOf n, wordOf phi, 0#64, 0#64⟩

/-- The exponent scan of R170 step 5 from `e` on, step E_STEP = 1 (R179): the first `e` that is not below φ or is coprime
with it. The first argument bounds the passes; φ are always enough (A14). -/
def scanExponent : Nat → Nat → Nat → Nat
  | 0, _, e => e
  | fuel + 1, phi, e =>
    if e < phi ∧ gcdValue e phi ≠ 1 then scanExponent fuel phi (e + Config.eStep) else e

/-- `KeyTail(p, q, draws)` (R170), steps 3 to 6: the modulus gate (R174), the exponent scan (R179), the inverse (R180). -/
def keyTail (p q drawn : Nat) (s : State) : State :=
  let n := p * q
  let phi := (p - 1) * (q - 1)
  if n ≤ Config.modulusMinExcl then s.keyFail .modulusTooSmall drawn (partialKey p q n phi)
  else
    let e := scanExponent phi phi Config.eStart
    if phi ≤ e then s.keyFail .noCoprimeExponent drawn (partialKey p q n phi)
    else
      s.keySucceed drawn
        ⟨wordOf p, wordOf q, wordOf n, wordOf phi, wordOf e, wordOf (modInvValue e phi)⟩

/-- How the draw loops of R171 stand after the answers received so far. -/
inductive DrawResult
  /-- Every answer is used and another draw is needed (R172). -/
  | waiting
  /-- The loops ended with an error after `drawn` draws; `p` is the first prime if it was found, else 0. -/
  | failed (code : ErrCode) (drawn : Nat) (p : Nat)
  /-- Two distinct primes were drawn. -/
  | primes (p q drawn : Nat)
  deriving DecidableEq, Repr

/-- The two draw loops of R171 with the rules of R173, over the answers in order. `p` is 0 in the first loop (no prime is
0) and the accepted prime in the second. -/
def drawLoop (maxDraws : Nat) : List Word → Nat → Nat → DrawResult
  | answers, drawn, p =>
    if drawn = maxDraws then .failed .drawsExhausted drawn p
    else
      match answers with
      | [] => .waiting
      | r :: rest =>
        if r.toNat < Config.primeLo ∨ Config.primeHi < r.toNat then .failed .rngRange (drawn + 1) p
        else if isPrime r.toNat = false then drawLoop maxDraws rest (drawn + 1) p
        else if p = 0 then drawLoop maxDraws rest (drawn + 1) r.toNat
        else if r.toNat = p then drawLoop maxDraws rest (drawn + 1) p
        else .primes p r.toNat (drawn + 1)

/-- The draw loops over the answers the `KEYGEN_RAND` in flight has received. -/
def State.drawResult (s : State) : DrawResult := drawLoop s.cfg.maxDraws s.rngAnswers 0 0

/-- `KEYGEN_RAND` (R171). While a draw is unanswered the command stays in flight (R172, A7). -/
def execKeygenRand (s : State) : Host.Outcome State Fault Refusal :=
  match s.drawResult with
  | .waiting             => .next s
  | .failed code drawn p => .next (s.keyFail code drawn (partialKey p 0 0 0))
  | .primes p q drawn    => .next (keyTail p q drawn s)

/-- A forced prime pair that R175 rejects: too wide, not prime, or equal (R176). -/
def badForcedPrimes (p q : Nat) : Bool :=
  2 ^ Config.forcedPrimeBits ≤ p || 2 ^ Config.forcedPrimeBits ≤ q || !isPrime p || !isPrime q || p == q

/-- `KEYGEN_FORCED` (R175). -/
def execKeygenForced (s : State) : Host.Outcome State Fault Refusal :=
  if badForcedPrimes s.opndA s.opndB then .next (s.keyFail .badForcedPrimes 0 KeyRegs.zero)
  else .next (keyTail s.opndA s.opndB 0 s)

/-- The block is asking for a draw: a `KEYGEN_RAND` is in flight and its draw loops need another answer (R172). -/
def State.awaitsDraw (s : State) : Bool := s.inFlight .keygenRand && decide (s.drawResult = .waiting)

/-- The random source answers (R172). Only an answer that is asked for is received; any other is discarded, as a reset
"discards a later answer" (R230; A6). -/
def State.rngAnswer (s : State) (v : Word) : State :=
  if s.awaitsDraw then { s with rngAnswers := s.rngAnswers ++ [v] } else s

end Sys2Proof.Machine
end

