-- ==== Sys2Proof/Machine/System.lean ====
section
/-! DEFINITION. The two commands without an arithmetic unit (40_host_access.md R106, R107): `NOP` and the illegal word. -/

namespace Sys2Proof.Machine

/-- `NOP` (R106): it writes nothing but the completion status. -/
def execNop (s : State) : Host.Outcome State Fault Refusal := .next (s.complete .ok)

/-- The illegal command (R107): `Execute(illegal w) = (BAD_CMD, {})`. -/
def execIllegal (s : State) : Host.Outcome State Fault Refusal := .next (s.raiseErr .badCmd)

end Sys2Proof.Machine
end

