-- ==== Sys2Proof/Machine/Flags.lean ====
section
/-! DEFINITION. The register words the host reads that are made of fields: `CFG`, `CTRL`, `STATUS`, `IRQ_STATUS`
(10_state.md R22 to R24, R32), the error codes (60_exceptions.md R200) and the interrupt output (R208). -/

namespace Sys2Proof.Machine

/-- The code of an outcome (R200). -/
def ErrCode.bits : ErrCode → Byte
  | .ok                => 0x00#8
  | .badCmd            => 0x01#8
  | .divZero           => 0x02#8
  | .notCoprime        => 0x03#8
  | .modulusTooSmall   => 0x04#8
  | .noCoprimeExponent => 0x05#8
  | .drawsExhausted    => 0x06#8
  | .rngRange          => 0x07#8
  | .badForcedPrimes   => 0x08#8
  | .noKey             => 0x09#8
  | .msgLen            => 0x0A#8

/-- `STATUS.ERR`, always (`ERRCODE` ≠ 0) (R27). -/
def Status.err (st : Status) : Bool := st.errcode.bits != 0#8

/-- The 64-bit value of `STATUS` (R24): fields from bit 63 down. -/
def Status.word (st : Status) : Word :=
  0#40 ++ st.lastOp ++ st.errcode.bits ++ 0#3 ++ BitVec.ofBool st.ovr ++ BitVec.ofBool st.keyValid
    ++ BitVec.ofBool st.err ++ BitVec.ofBool st.done ++ BitVec.ofBool st.busy

/-- The 64-bit value of `CFG` (R22): {0[63:48], KEYGEN_MAX_DRAWS[47:16], MSG_MAX[15:0]}. -/
def cfgWord (p : Params) : Word :=
  0#16 ++ BitVec.ofNat 32 p.maxDraws ++ BitVec.ofNat 16 p.msgMax

/-- A register whose only stored field is bit 0: `CTRL` reads zext_64(IRQ_EN) (R23), `IRQ_STATUS` has `DONE_PEND` in
bit 0 and reads 0 elsewhere (R32). -/
def bitWord (b : Bool) : Word := 0#63 ++ BitVec.ofBool b

/-- The level interrupt output, `IRQ_STATUS.DONE_PEND AND CTRL.IRQ_EN` (R208). -/
def State.irq (s : State) : Bool := s.donePend && s.irqEn

end Sys2Proof.Machine
end

