-- ==== Sys2Proof/Machine/AddressMap.lean ====
section
/-! DEFINITION. The register map (10_state.md R20), which offsets are mapped (20_memory.md R61, R63), and the value each
register reads as (R21 to R43). -/

namespace Sys2Proof.Machine

/-- The registers of R20 below offset 0x090, in the order of their offsets. -/
inductive Reg
  | id | cfg | ctrl | status | irqStatus | cmd | opa | opb | opc | res | msgLen | draws
  | keyP | keyQ | keyN | keyPhi | keyE | keyD
  deriving DecidableEq, Repr

/-- What lies at a mapped offset (R20): a register, or an entry of a buffer. -/
inductive Target
  | reg (r : Reg)
  | msg (i : Nat)
  | ct (i : Nat)
  | dec (i : Nat)
  deriving DecidableEq, Repr

/-- The offset of a register (R20). -/
def Reg.offset : Reg → Offset
  | .id        => 0x000#18
  | .cfg       => 0x008#18
  | .ctrl      => 0x010#18
  | .status    => 0x018#18
  | .irqStatus => 0x020#18
  | .cmd       => 0x028#18
  | .opa       => 0x030#18
  | .opb       => 0x038#18
  | .opc       => 0x040#18
  | .res       => 0x048#18
  | .msgLen    => 0x050#18
  | .draws     => 0x058#18
  | .keyP      => 0x060#18
  | .keyQ      => 0x068#18
  | .keyN      => 0x070#18
  | .keyPhi    => 0x078#18
  | .keyE      => 0x080#18
  | .keyD      => 0x088#18

/-- The register at word number `k` of the register block, offset `8·k` (R20); none past 0x088. -/
def regAt (k : Nat) : Option Reg :=
  match k with
  | 0  => some .id
  | 1  => some .cfg
  | 2  => some .ctrl
  | 3  => some .status
  | 4  => some .irqStatus
  | 5  => some .cmd
  | 6  => some .opa
  | 7  => some .opb
  | 8  => some .opc
  | 9  => some .res
  | 10 => some .msgLen
  | 11 => some .draws
  | 12 => some .keyP
  | 13 => some .keyQ
  | 14 => some .keyN
  | 15 => some .keyPhi
  | 16 => some .keyE
  | 17 => some .keyD
  | _  => none

/-- The offset of entry `i` of each buffer (R20, R67); meaningful for `i < 8192`. -/
def msgOffset (i : Nat) : Offset := BitVec.ofNat 18 (0x10000 + 8 * i)

/-- The offset of `CT_BUF[i]` (R20). -/
def ctOffset (i : Nat) : Offset := BitVec.ofNat 18 (0x20000 + 8 * i)

/-- The offset of `DEC_BUF[i]` (R20). -/
def decOffset (i : Nat) : Offset := BitVec.ofNat 18 (0x30000 + 8 * i)

/-- The offset of a name of R20, a register's or a buffer entry's. -/
def Target.offset : Target → Offset
  | .reg r => r.offset
  | .msg i => msgOffset i
  | .ct i  => ctOffset i
  | .dec i => decOffset i

/-- What is mapped at word number `k`, offset `8·k`, of a block whose buffers hold `cap` entries (R63). -/
def targetAt (cap k : Nat) : Option Target :=
  if k < 0x2000 then (regAt k).map .reg
  else if k < 0x4000 then (if k - 0x2000 < cap then some (.msg (k - 0x2000)) else none)
  else if k < 0x6000 then (if k - 0x4000 < cap then some (.ct (k - 0x4000)) else none)
  else (if k - 0x6000 < cap then some (.dec (k - 0x6000)) else none)

/-- What a host access at `off` reaches, or the fault it raises: misaligned (R61), unmapped (R63). -/
def locate (p : Params) (off : Offset) : Except Fault Target :=
  if off.toNat % 8 ≠ 0 then .error (.hostMisaligned off)
  else
    match targetAt p.msgMax (off.toNat / 8) with
    | some t => .ok t
    | none   => .error (.hostUnmapped off)

/-- The value a read of a register answers (R21 to R37, R43). It never changes the state (R66). -/
def State.readReg (s : State) : Reg → Word
  | .id        => Config.idValue
  | .cfg       => cfgWord s.cfg
  | .ctrl      => bitWord s.irqEn
  | .status    => s.status.word
  | .irqStatus => bitWord s.donePend
  | .cmd       => s.cmd
  | .opa       => s.opa
  | .opb       => s.opb
  | .opc       => s.opc
  | .res       => s.res
  | .msgLen    => s.msgLen
  | .draws     => s.draws
  | .keyP      => s.keys.p
  | .keyQ      => s.keys.q
  | .keyN      => s.keys.n
  | .keyPhi    => s.keys.phi
  | .keyE      => s.keys.e
  | .keyD      => s.keys.d

end Sys2Proof.Machine
end

