-- ==== Sys2Proof/Machine/HostAccess.lean ====
section
/-! DEFINITION. The host's two operations, read and write, and the issue of a command by a `CMD` write
(40_host_access.md R100 to R103, R105; 20_memory.md R60 to R68). -/

namespace Sys2Proof.Machine

/-- A read of a buffer entry: its stored value, or the fault of R48 where nothing has written it. -/
def State.readStored (s : State) (buf : BufName) (i : Nat) (v : Option Word) : Host.Outcome State Fault Refusal :=
  match v with
  | some v => .next (s.respond v)
  | none   => .fault (.unwrittenRead buf i)

/-- The host reads what lies at a mapped offset (R100, R68). The check for a buffer the command in flight is writing
comes before the check for an unwritten entry. -/
def State.readTarget (s : State) : Target → Host.Outcome State Fault Refusal
  | .reg r => .next (s.respond (s.readReg r))
  | .msg i => s.readStored .msg i ((bufGet s.mem.msg i).map (fun b => b.setWidth 64))
  | .ct i  => if s.inFlight .encrypt then .next s.respondFree else s.readStored .ct i (bufGet s.mem.ct i)
  | .dec i => if s.inFlight .decrypt then .next s.respondFree else s.readStored .dec i (bufGet s.mem.dec i)

/-- Host read `MemRead(off, 8)` (R100). -/
def State.hostRead (s : State) (off : Offset) : Host.Outcome State Fault Refusal :=
  match locate s.cfg off with
  | .error f => .fault f
  | .ok t    => s.readTarget t

/-- A host write of `v` to a register (R101, R102). Read-only registers ignore it. -/
def State.writeReg (s : State) (v : Word) : Reg → State
  | .ctrl      => if v.getLsbD 1 then s.softReset else { s with irqEn := v.getLsbD 0 }
  | .irqStatus => if v.getLsbD 0 then s.acknowledge else s
  | .cmd       => if s.status.busy then s.overrun else s.accept v
  | .opa       => { s with opa := v }
  | .opb       => { s with opb := v }
  | .opc       => { s with opc := v }
  | .msgLen    => { s with msgLen := v }
  | .id        => s
  | .cfg       => s
  | .status    => s
  | .res       => s
  | .draws     => s
  | .keyP      => s
  | .keyQ      => s
  | .keyN      => s
  | .keyPhi    => s
  | .keyE      => s
  | .keyD      => s

/-- A host write of `v` to what lies at a mapped offset (R101). Buffer writes are dropped while `BUSY` = 1 (R68);
`MSG_BUF` keeps `v[7:0]` (R38); `DEC_BUF` is read-only (R40). -/
def State.writeTarget (s : State) (v : Word) : Target → State
  | .reg r => s.writeReg v r
  | .msg i => if s.status.busy then s else s.storeMsg i (v.setWidth 8)
  | .ct i  => if s.status.busy then s else s.storeCt i v
  | .dec _ => s

/-- Host write `MemWrite(off, 8, v)` (R101, R102). A write answers no value. -/
def State.hostWrite (s : State) (off : Offset) (v : Word) : Host.Outcome State Fault Refusal :=
  match locate s.cfg off with
  | .error f => .fault f
  | .ok t    => .next (State.writeTarget { s with busResp := none } v t)

/-- One host access (R60). -/
def State.hostAccess (s : State) : Access → Host.Outcome State Fault Refusal
  | .read off    => s.hostRead off
  | .write off v => s.hostWrite off v

end Sys2Proof.Machine
end

