-- ==== Sys2Proof/Machine/Agents.lean ====
section
/-! DEFINITION. The steps of the agents (00_scope.md R4, 70_reset_and_hazards.md R249), and the placing of a command word
for the sequencer's next turn. -/

namespace Sys2Proof.Machine

/-- `Execute(LW)` and completion (R104): the command the latched word decodes to (R82), or the illegal command (R107). -/
def State.runLatched (s : State) : Host.Outcome State Fault Refusal :=
  match decode s.latch.lw with
  | .command i => exec i s
  | .illegal _ => execIllegal s

/-- The sequencer's turn (R104): enabled exactly when `SEQ` = RUN; an idle block waits (R222, A7). -/
def State.sequencerTurn (s : State) : Host.Outcome State Fault Refusal :=
  match s.seq with
  | .idle => .next s
  | .run  => s.runLatched

/-- One atomic step of an agent (R249). -/
def State.agentStep (s : State) : Event → Host.Outcome State Fault Refusal
  | .host a      => s.hostAccess a
  | .sequencer   => s.sequencerTurn
  | .rngAnswer v => .next (s.rngAnswer v)
  | .hardReset   => .next s.hardReset

/-- The next agent's step: the oldest coming event; with none, the sequencer's turn (A1). -/
def State.nextStep (s : State) : Host.Outcome State Fault Refusal :=
  match s.inputs with
  | []        => s.sequencerTurn
  | ev :: rest => State.agentStep { s with inputs := rest } ev

/-- The block with command word `w` accepted (R103) and the sequencer to move next (A12). -/
def State.placeCommand (s : State) (w : Word) : State :=
  State.accept { s with inputs := .sequencer :: s.inputs } w

end Sys2Proof.Machine
end

