-- ==== Sys2Proof/Machine/Step.lean ====
section
/-! DEFINITION. One step of the machine, and the placing of a command where the next step runs it. -/

namespace Sys2Proof.Machine

/-- One atomic step (70_reset_and_hazards.md R249): the agent that moves next is the oldest entry of `inputs` (A1). -/
def step (s : State) : Host.Outcome State Fault Refusal := s.nextStep

/-- `s` with the opcode table's word accepted as a command and the sequencer to move next, so that the very next step is
that command's completion. The block fetches nothing (R45, R62): acceptance (R103) is how a command comes to run (A12). -/
def State.withFetchWord (s : State) (nbits w : Nat) : State := s.placeCommand (tableWord nbits w)

end Sys2Proof.Machine
end

