-- ==== Sys2Proof/Machine/HostScript.lean ====
section
/-! DEFINITION. The host script language (30_encoding.md R86, R87): statements and the bus transaction each makes, the
pseudo-instructions and their expansions, and a host that runs a program against the block. The host's program position
is its own: no statement acts on the block except through its transaction (A19). -/

namespace Sys2Proof.Machine

/-- A label of a host program: written by its author, or the fresh label of an expanded `wait` (R87). -/
inductive Label
  | named (name : String)
  | fresh (k : Nat)
  deriving DecidableEq, Repr

/-- The statements of R86. REG is one of the names of 10_state.md R20, a register or a buffer entry, in every statement
that has it; the buffer forms R86 lists apart are the same statements with a buffer entry. DEDUCED, safe (A21). -/
inductive Stmt
  | wr (name : Target) (v : Word)
  | rd (name : Target)
  | bnz (name : Target) (mask : Word) (l : Label)
  deriving DecidableEq, Repr

/-- The pseudo-instructions of R87. REG in `expect` is any name of R20, as in `Stmt` (A21). -/
inductive Pseudo
  | cmd (i : Instr)
  | wait
  | expect (name : Target) (v : Word)
  | prime (n : Word)
  | gcd (a b : Word)
  | modinv (e phi : Word)
  | modexp (b x m : Word)
  | keygenForced (p q : Word)
  | keygenRand
  | encrypt
  | decrypt
  deriving DecidableEq, Repr

/-- One line of a program after expansion: its labels and its statement (R86). -/
structure Line where
  labels : List Label
  stmt   : Stmt
  deriving DecidableEq, Repr

/-- One line as written: a statement or a pseudo-instruction, with the labels before it (R86 allows one; more than one is
the model's, A23). -/
inductive SourceLine
  | stmt (labels : List Label) (st : Stmt)
  | pseudo (labels : List Label) (ps : Pseudo)
  deriving DecidableEq, Repr

/-- The bus transaction of a statement (R86, third column). -/
def Stmt.access : Stmt → Access
  | .wr name v    => .write name.offset v
  | .rd name      => .read name.offset
  | .bnz name _ _ => .read name.offset

/-- `cmd MNEMONIC` (R87): a write of the command word to `CMD`. -/
def cmdStmt (i : Instr) : Stmt := .wr (.reg .cmd) (encode i)

/-- `wait` (R87) with the fresh label `k`: poll until `STATUS.BUSY` = 0. -/
def waitLine (k : Nat) : Line := ⟨[.fresh k], .bnz (.reg .status) 1#64 (.fresh k)⟩

/-- A line without a label. -/
def plain (st : Stmt) : Line := ⟨[], st⟩

/-- `cmd i ; wait ; rd r`, the end of every unit pseudo-instruction of R87. -/
def runAndRead (k : Nat) (i : Instr) (r : Reg) : List Line := [plain (cmdStmt i), waitLine k, plain (.rd (.reg r))]

/-- The expansions of R87; `k` numbers the fresh label. -/
def Pseudo.expand (k : Nat) : Pseudo → List Line
  | .cmd i            => [plain (cmdStmt i)]
  | .wait             => [waitLine k]
  | .expect name _    => [plain (.rd name)]
  | .prime n          => plain (.wr (.reg .opa) n) :: runAndRead k .primeTest .res
  | .gcd a b          => plain (.wr (.reg .opa) a) :: plain (.wr (.reg .opb) b) :: runAndRead k .gcd .res
  | .modinv e phi     => plain (.wr (.reg .opa) e) :: plain (.wr (.reg .opb) phi) :: runAndRead k .modinv .res
  | .modexp b x m     => plain (.wr (.reg .opa) b) :: plain (.wr (.reg .opb) x) :: plain (.wr (.reg .opc) m) :: runAndRead k .modexp .res
  | .keygenForced p q => plain (.wr (.reg .opa) p) :: plain (.wr (.reg .opb) q) :: runAndRead k .keygenForced .status
  | .keygenRand       => runAndRead k .keygenRand .status
  | .encrypt          => runAndRead k .encrypt .status
  | .decrypt          => runAndRead k .decrypt .status

/-- Put a source line's own labels on the first line of its expansion. DESIGN CHOICE, safe (A23): R87 does not say which
line of an expansion the label before a pseudo-instruction stands on. -/
def withLabels (ls : List Label) : List Line → List Line
  | []        => []
  | l :: rest => { l with labels := ls ++ l.labels } :: rest

/-- A whole program expanded, its lines numbered from `k` so that every `wait` has a label of its own. -/
def expandFrom : Nat → List SourceLine → List Line
  | _, [] => []
  | k, .stmt ls st :: rest => ⟨ls, st⟩ :: expandFrom (k + 1) rest
  | k, .pseudo ls ps :: rest => withLabels ls (ps.expand k) ++ expandFrom (k + 1) rest

/-- The buffer index a name has lies in its window: 8192 entries (R20, R7). DESIGN CHOICE, safe (A22): R86 puts no bound on
the index. -/
def Target.inWindow : Target → Bool
  | .reg _ => true
  | .msg i => i < 8192
  | .ct i  => i < 8192
  | .dec i => i < 8192

/-- The name a statement accesses has its index in its window (A22). -/
def Stmt.indexInWindow : Stmt → Bool
  | .wr name _    => name.inWindow
  | .rd name      => name.inWindow
  | .bnz name _ _ => name.inWindow

/-- The position of the first line that carries a label. DESIGN CHOICE, safe (A23): R86 does not say where a branch to a
label on two lines goes; `programWf` refuses such a program. -/
def findLabel (l : Label) : List Line → Option Nat
  | [] => none
  | line :: rest => if l ∈ line.labels then some 0 else (findLabel l rest).map (· + 1)

/-- The label a statement branches to is on some line of the program. -/
def Stmt.targetDefined (prog : List Line) : Stmt → Bool
  | .bnz _ _ l => (findLabel l prog).isSome
  | _ => true

/-- A well-formed program: no label on two lines, every branch target defined, every buffer index in its window. DESIGN
CHOICE, safe (A23, A19, A22): R86 states none of the three checks. -/
def programWf (prog : List Line) : Bool :=
  decide (prog.flatMap Line.labels).Nodup && prog.all fun l => l.stmt.indexInWindow && l.stmt.targetDefined prog

/-- A host running a program against the block: its program, its own position, and the block. -/
structure HostRun where
  prog  : List Line
  pos   : Nat
  block : State
  deriving DecidableEq, Repr

/-- Where the host goes after a line whose read answered `v` (R86): only `bnz` branches, when (value AND mask) ≠ 0. -/
def nextPos (prog : List Line) (pos : Nat) (st : Stmt) (v : Word) : Nat :=
  match st with
  | .bnz _ mask l => if v &&& mask ≠ 0#64 then (findLabel l prog).getD (pos + 1) else pos + 1
  | _ => pos + 1

/-- The host's turn: its current statement's transaction is the block's next step. A host past its last line rests. -/
def HostRun.hostTurn (h : HostRun) : Host.Outcome HostRun Fault Refusal :=
  match h.prog[h.pos]? with
  | none => .next h
  | some line =>
    match step { h.block with inputs := .host line.stmt.access :: h.block.inputs } with
    | .next b    => .next { h with block := b, pos := nextPos h.prog h.pos line.stmt (b.busResp.getD 0#64) }
    | .fault f   => .fault f
    | .refused r => .refused r

/-- A turn of another agent: the block's own next step, the host's position unchanged. -/
def HostRun.blockTurn (h : HostRun) : Host.Outcome HostRun Fault Refusal :=
  match step h.block with
  | .next b    => .next { h with block := b }
  | .fault f   => .fault f
  | .refused r => .refused r

end Sys2Proof.Machine
end

