-- ==== Sys2Proof/Safety.lean ====
section
/-! DEFINITION. What holds of every state a run can reach: the key invariant of 10_state.md R44 and the invariants of the
status, sequencer, buffers and draws; the initial states; reachability. -/

namespace Sys2Proof.Machine

/-- The key invariant (R44), word for word. -/
structure KeyInv (k : KeyRegs) : Prop where
  primeP   : k.p.toNat.Prime
  primeQ   : k.q.toNat.Prime
  distinct : k.p.toNat ≠ k.q.toNat
  modulus  : k.n.toNat = k.p.toNat * k.q.toNat
  large    : 255 < k.n.toNat
  totient  : k.phi.toNat = (k.p.toNat - 1) * (k.q.toNat - 1)
  coprime  : Nat.gcd k.e.toNat k.phi.toNat = 1
  eRange   : 1 < k.e.toNat ∧ k.e.toNat < k.phi.toNat
  inverse  : k.e.toNat * k.d.toNat % k.phi.toNat = 1
  dRange   : k.d.toNat < k.phi.toNat

/-- The invariant of the block. Each field names its rule. -/
structure Inv (s : State) : Prop where
  /-- Canonical buffers, so that equal contents are equal data (R48, A8). -/
  memWf    : s.mem.wf
  /-- No entry at or above MSG_MAX is written (R38 to R40, R63). -/
  memRange : s.mem.inRange s.cfg.msgMax
  /-- `SEQ` = RUN exactly when `STATUS.BUSY` = 1 (R42). -/
  seqBusy  : s.seq = .run ↔ s.status.busy = true
  /-- `BUSY` = 1 and `DONE` = 1 never hold together (R25). -/
  busyDone : ¬ (s.status.busy = true ∧ s.status.done = true)
  /-- No error is recorded while a command is in flight (R30, R103). -/
  busyOk   : s.status.busy = true → s.status.errcode = .ok
  /-- `LAST_OP` is the opcode field of the last accepted word (R31, R33). -/
  lastOp   : s.status.lastOp = opcodeField s.cmd
  /-- While a command is in flight the latches hold its word (R41, R33). -/
  latched  : s.status.busy = true → s.latch.lw = s.cmd ∧ s.latch.lop = opcodeField s.cmd
  /-- While `KEY_VALID` = 1 the key registers satisfy R44 (R28). -/
  key      : s.status.keyValid = true → KeyInv s.keys
  /-- One command consumes at most KEYGEN_MAX_DRAWS draws (R173). -/
  drawsMax : s.draws.toNat ≤ s.cfg.maxDraws
  /-- The draws received stay within the bound (R173). -/
  answers  : s.rngAnswers.length ≤ s.cfg.maxDraws
  /-- Only a `KEYGEN_RAND` in flight holds draws (R47, R172). -/
  drawing  : s.rngAnswers ≠ [] → s.inFlight .keygenRand = true

/-- The states a run can begin in: the state after reset, for any instance of the hardware (R7, R22) and any sequence of
steps the agents will take (R249). -/
def Initial (s : State) : Prop :=
  ∃ (p : Params) (evs : List Event), s = { State.reset with cfg := p, inputs := evs }

/-- A state some run from an initial state reaches. -/
inductive Reachable : State → Prop
  | start {s : State} (h : Initial s) : Reachable s
  | next {s t : State} (h : Reachable s) (hs : step s = .next t) : Reachable t

/-! ## The words of the claims -/

/-- `s` with one more event before the ones it holds: the step that comes next is `ev` (R249). -/
def State.upNext (s : State) (ev : Event) : State := { s with inputs := ev :: s.inputs }

/-- The next step is a reset: the platform's (R230), or a host write to `CTRL` with bit 1 set (R231). -/
def ResetNext (s : State) : Prop :=
  s.inputs.head? = some .hardReset ∨
    ∃ v : Word, v.getLsbD 1 = true ∧ s.inputs.head? = some (.host (.write 0x010#18 v))

/-- The next step is a host write of `w` to `CMD` (R102). -/
def CmdWriteNext (s : State) (w : Word) : Prop := s.inputs.head? = some (.host (.write 0x028#18 w))

/-- The next step is the sequencer's and the command in flight is `i` (R104). -/
def Runs (s : State) (i : Instr) : Prop :=
  (s.inputs = [] ∨ s.inputs.head? = some .sequencer) ∧ s.seq = .run ∧ decode s.latch.lw = .command i

/-- The completion flags of R104 with outcome `code`; `OVR` and `LAST_OP` are not written by a completion. -/
def Ended (s t : State) (code : ErrCode) : Prop :=
  t.status.busy = false ∧ t.status.done = true ∧ t.status.errcode = code ∧ t.status.ovr = s.status.ovr ∧
    t.status.lastOp = s.status.lastOp ∧ t.seq = .idle ∧ t.donePend = true

/-- The idle block `s` accepts the word `w` (R103) and the sequencer's next turn ends it in `t` (R104). -/
def IssuedAndEnded (s : State) (w : Word) (t : State) : Prop :=
  ∃ u, step (s.upNext (.host (.write 0x028#18 w))) = .next u ∧ step (u.upNext .sequencer) = .next t

/-- What no command writes: the parameters, the interrupt enable, the command word, the operand registers and the
latches (R33, R34, R36, R41). -/
def HostSideKept (s t : State) : Prop :=
  t.cfg = s.cfg ∧ t.irqEn = s.irqEn ∧ t.cmd = s.cmd ∧ t.opa = s.opa ∧ t.opb = s.opb ∧ t.opc = s.opc ∧
    t.msgLen = s.msgLen ∧ t.latch = s.latch

/-- What only a key generation writes: the key registers, `DRAWS` and `KEY_VALID` (R28, R37, R43). -/
def KeysKept (s t : State) : Prop :=
  t.keys = s.keys ∧ t.draws = s.draws ∧ t.status.keyValid = s.status.keyValid

/-- Every entry of every buffer reads as before, written or unwritten (R38 to R40, R48). -/
def EntriesKept (s t : State) : Prop :=
  ∀ i, bufGet t.mem.msg i = bufGet s.mem.msg i ∧ bufGet t.mem.ct i = bufGet s.mem.ct i ∧
    bufGet t.mem.dec i = bufGet s.mem.dec i

/-- A prime in the candidate range of the random draws (R7). -/
def drawnPrime (p : Nat) : Prop := p.Prime ∧ 100 ≤ p ∧ p ≤ 1000

/-- A draw the loops reject and count (R173): in range, and composite or, once the first prime `p` is found, equal to
it; `p` is 0 in the first loop. -/
def rejectedDraw (p : Nat) (r : Word) : Prop :=
  100 ≤ r.toNat ∧ r.toNat ≤ 1000 ∧ (¬ r.toNat.Prime ∨ (p ≠ 0 ∧ r.toNat = p))

/-- `k` is the key of the primes `p`, `q` (R170, R177, R179, R180): e is the first value from 3 up that is coprime with φ,
and d its inverse modulo φ. -/
def KeyOf (p q : Nat) (k : KeyRegs) : Prop :=
  k.p.toNat = p ∧ k.q.toNat = q ∧ k.n.toNat = p * q ∧ k.phi.toNat = (p - 1) * (q - 1) ∧
    3 ≤ k.e.toNat ∧ k.e.toNat < k.phi.toNat ∧ Nat.gcd k.e.toNat k.phi.toNat = 1 ∧
    (∀ c, 3 ≤ c → c < k.e.toNat → Nat.gcd c k.phi.toNat ≠ 1) ∧
    k.e.toNat * k.d.toNat % k.phi.toNat = 1 ∧ k.d.toNat < k.phi.toNat

/-- The key registers as a failure leaves them (R178): the four values computed so far, `KEY_E` = `KEY_D` = 0. -/
def KeyFailedAs (p q n phi : Nat) (k : KeyRegs) : Prop :=
  k.p.toNat = p ∧ k.q.toNat = q ∧ k.n.toNat = n ∧ k.phi.toNat = phi ∧ k.e = 0#64 ∧ k.d = 0#64

/-- Two outcomes of a step are the same but for a change `f` of the next state. -/
def SameOutcome (f : State → State) (a b : Host.Outcome State Fault Refusal) : Prop :=
  match a, b with
  | .next t, .next u     => u = f t
  | .fault x, .fault y   => x = y
  | .refused x, .refused y => x = y
  | _, _                 => False

end Sys2Proof.Machine
end

