-- ==== Sys2Proof/Certificates/Slice0/Obligations.lean ====
section
/-! DEFINITION. The statements for the provers. Each formalises the rule of the spec its docstring names; the words used
(`Ended`, `HostSideKept`, `KeyOf`, …) are defined in Sys2Proof/Safety.lean. A statement about a step says what the step
that follows one named event does, `step (s.upNext ev)`, in every state `s`. -/

open Sys2Proof Sys2Proof.Machine

/-! ## Encoding -/

/-- R83: the nine command words, and a word is a command exactly when it equals one of them in all 64 bits. -/
def Obligations.DecodeMatchesOpcodeMap : Prop :=
  (encode .nop = 0x0#64 ∧ encode .primeTest = 0x1#64 ∧ encode .gcd = 0x2#64 ∧ encode .modinv = 0x3#64 ∧
    encode .modexp = 0x4#64 ∧ encode .keygenRand = 0x5#64 ∧ encode .keygenForced = 0x6#64 ∧
    encode .encrypt = 0x7#64 ∧ encode .decrypt = 0x8#64) ∧
  ∀ (w : Word) (i : Instr), decode w = .command i ↔ w = encode i

/-- R82, R84 (the decoding half): which words are illegal, and why, for all 2^64 words. -/
def Obligations.IllegalWordsAreNamed : Prop :=
  ∀ w : Word,
    (decode w = .illegal .reservedBits ↔ 0x100 ≤ w.toNat) ∧
    (decode w = .illegal .unassignedOpcode ↔ 0x9 ≤ w.toNat ∧ w.toNat ≤ 0xFF) ∧
    ((∃ why, decode w = .illegal why) ↔ 0x9 ≤ w.toNat)

/-- Sanity: words written out from R83 decode to the commands they stand for, and two illegal words of R107 do not. -/
def Obligations.SampleWordsDecode : Prop :=
  decode 0x0000000000000001#64 = .command .primeTest ∧ decode 0x0000000000000003#64 = .command .modinv ∧
  decode 0x0000000000000004#64 = .command .modexp ∧ decode 0x0000000000000005#64 = .command .keygenRand ∧
  decode 0x0000000000000008#64 = .command .decrypt ∧ decode 0x0000000000000009#64 = .illegal .unassignedOpcode ∧
  decode 0x0000000000000101#64 = .illegal .reservedBits

/-! ## The step -/

/-- R104: with the sequencer to move and a command in flight, the step is `exec` of the decoded command. -/
def Obligations.StepRunsDecodedCommand : Prop :=
  ∀ (s : State) (i : Instr), s.seq = .run → decode s.latch.lw = .command i →
    step (s.upNext .sequencer) = exec i s ∧ (s.inputs = [] → step s = exec i s)

/-- R104 with the model's own convention for placing a command (log entry A12): the step after `withFetchWord` runs the
table's word as the command it decodes to, in the state R103's acceptance leaves. -/
def Obligations.PlacedCommandRunsNext : Prop :=
  ∀ (s : State) (i : Instr), step (s.withFetchWord 64 (encode i).toNat) = exec i (s.accept (encode i)) ∧
    decodeTableWord 64 (encode i).toNat = some i

/-- R104 `require SEQ = RUN` (log entry A7): an idle block's sequencer turn changes nothing. -/
def Obligations.IdleSequencerChangesNothing : Prop :=
  ∀ s : State, s.seq = .idle → step (s.upNext .sequencer) = .next s

/-- R107: every word outside the nine (R84), once in flight, completes with `BAD_CMD` and no other effect; issued to an
idle block it ends with `ERR` = 1 and `LAST_OP` = w[7:0]. -/
def Obligations.IllegalCommandCompletesBadCmd : Prop :=
  (∀ s : State, s.seq = .run → 0x9 ≤ s.latch.lw.toNat →
    ∃ t, step (s.upNext .sequencer) = .next t ∧ Ended s t .badCmd ∧ t.status.err = true ∧ t.res = s.res ∧ KeysKept s t ∧
      EntriesKept s t ∧ HostSideKept s t) ∧
  ∀ (s : State) (w : Word), s.status.busy = false → 0x9 ≤ w.toNat →
    ∃ t, IssuedAndEnded s w t ∧ t.status.errcode = .badCmd ∧ t.status.err = true ∧
      t.status.lastOp = w.extractLsb' 0 8 ∧ t.res = s.res ∧ KeysKept s t ∧ EntriesKept s t

/-- R104: whatever command ends, its completion flags are those of R104; a `KEYGEN_RAND` that still waits for a draw
(R172) is the only command that does not end. -/
def Obligations.CommandsEndWithCompletionFlags : Prop :=
  ∀ (i : Instr) (s t : State), exec i s = .next t →
    (i = .keygenRand ∧ t = s ∧ s.drawResult = .waiting) ∨
    ((∃ code, Ended s t code) ∧ HostSideKept s t)

/-! ## Command issue -/

/-- R103: a `CMD` write to an idle block is the acceptance of its word. -/
def Obligations.CommandWriteIsAccepted : Prop :=
  ∀ (s : State) (w : Word), s.status.busy = false →
    ∃ t, step (s.upNext (.host (.write 0x028#18 w))) = .next t ∧
      t.cmd = w ∧ t.latch.lw = w ∧ t.latch.lop = w.extractLsb' 0 8 ∧
      t.latch.la = s.opa ∧ t.latch.lb = s.opb ∧ t.latch.lc = s.opc ∧ t.latch.llen = s.msgLen ∧
      t.status = ⟨true, false, s.status.keyValid, false, .ok, w.extractLsb' 0 8⟩ ∧ t.status.err = false ∧
      t.seq = .run ∧ t.donePend = s.donePend ∧
      t.res = s.res ∧ t.draws = s.draws ∧ t.keys = s.keys ∧ EntriesKept s t ∧ t.cfg = s.cfg ∧ t.irqEn = s.irqEn ∧
      t.opa = s.opa ∧ t.opb = s.opb ∧ t.opc = s.opc ∧ t.msgLen = s.msgLen

/-- R105: a `CMD` write while a command is in flight sets `OVR` and nothing else. -/
def Obligations.CommandWriteOverruns : Prop :=
  ∀ (s : State) (w : Word), s.status.busy = true →
    ∃ t, step (s.upNext (.host (.write 0x028#18 w))) = .next t ∧
      t.status = { s.status with ovr := true } ∧ t.seq = s.seq ∧ t.donePend = s.donePend ∧ t.res = s.res ∧
      t.draws = s.draws ∧ t.keys = s.keys ∧ EntriesKept s t ∧ HostSideKept s t ∧ t.rngAnswers = s.rngAnswers

/-! ## The host's reads and writes -/

/-- R61: a misaligned access is the host fault of R61, whatever it would have done. -/
def Obligations.MisalignedAccessFaults : Prop :=
  ∀ (s : State) (off : Offset) (v : Word), off.toNat % 8 ≠ 0 →
    step (s.upNext (.host (.read off))) = .fault (.hostMisaligned off) ∧
    step (s.upNext (.host (.write off v))) = .fault (.hostMisaligned off)

/-- R63: an aligned access is unmapped exactly outside the register block and the three buffers. -/
def Obligations.UnmappedAccessFaults : Prop :=
  ∀ (s : State) (off : Offset) (v : Word), off.toNat % 8 = 0 →
    let mapped : Prop := off.toNat ≤ 0x088 ∨ ∃ i, i < s.cfg.msgMax ∧
      (off.toNat = 0x10000 + 8 * i ∨ off.toNat = 0x20000 + 8 * i ∨ off.toNat = 0x30000 + 8 * i)
    (step (s.upNext (.host (.read off))) = .fault (.hostUnmapped off) ↔ ¬ mapped) ∧
    (step (s.upNext (.host (.write off v))) = .fault (.hostUnmapped off) ↔ ¬ mapped) ∧
    (mapped → ∃ t, step (s.upNext (.host (.write off v))) = .next t)

/-- R20 (the register block), R66: a read of each register, at its offset, answers the register's value and changes
nothing of the block. -/
def Obligations.RegisterReadsAnswerTheRegister : Prop :=
  ∀ (s : State) (ov : Offset × Word),
    ov ∈ [(0x000#18, 0x5253415F434F5245#64), (0x008#18, cfgWord s.cfg), (0x010#18, if s.irqEn then 1#64 else 0#64),
          (0x018#18, s.status.word), (0x020#18, if s.donePend then 1#64 else 0#64), (0x028#18, s.cmd),
          (0x030#18, s.opa), (0x038#18, s.opb), (0x040#18, s.opc), (0x048#18, s.res), (0x050#18, s.msgLen),
          (0x058#18, s.draws), (0x060#18, s.keys.p), (0x068#18, s.keys.q), (0x070#18, s.keys.n),
          (0x078#18, s.keys.phi), (0x080#18, s.keys.e), (0x088#18, s.keys.d)] →
      step (s.upNext (.host (.read ov.1))) = .next { s with busResp := some ov.2 }

/-- R24, R27: the fields of the `STATUS` word, and a host write to it is ignored. -/
def Obligations.StatusWordHasTheFields : Prop :=
  (∀ st : Status,
    st.word.toNat = bitNat st.busy + 2 * bitNat st.done + 4 * bitNat st.err + 8 * bitNat st.keyValid +
      16 * bitNat st.ovr + 2 ^ 8 * st.errcode.bits.toNat + 2 ^ 16 * st.lastOp.toNat ∧
    (st.err = true ↔ st.errcode.bits ≠ 0#8)) ∧
  ∀ (s : State) (v : Word),
    step (s.upNext (.host (.write 0x018#18 v))) = .next { s with busResp := none }

/-- R200: the codes of the error table. -/
def Obligations.ErrorCodesMatchTheTable : Prop :=
  ErrCode.bits .ok = 0x00#8 ∧ ErrCode.bits .badCmd = 0x01#8 ∧ ErrCode.bits .divZero = 0x02#8 ∧
  ErrCode.bits .notCoprime = 0x03#8 ∧ ErrCode.bits .modulusTooSmall = 0x04#8 ∧
  ErrCode.bits .noCoprimeExponent = 0x05#8 ∧ ErrCode.bits .drawsExhausted = 0x06#8 ∧
  ErrCode.bits .rngRange = 0x07#8 ∧ ErrCode.bits .badForcedPrimes = 0x08#8 ∧ ErrCode.bits .noKey = 0x09#8 ∧
  ErrCode.bits .msgLen = 0x0A#8 ∧ ∀ c : ErrCode, c.bits.toNat ≤ 0x0A

/-- R22: the fields of `CFG`, within the ranges of R7, and no step of any agent changes it. -/
def Obligations.ConfigurationIsConstant : Prop :=
  (∀ p : Params, (cfgWord p).toNat = p.maxDraws * 2 ^ 16 + p.msgMax ∧ 1 ≤ p.msgMax ∧ p.msgMax ≤ 8192 ∧
    2 ≤ p.maxDraws ∧ p.maxDraws ≤ 2 ^ 32 - 1) ∧
  ∀ s t : State, step s = .next t → t.cfg = s.cfg

/-- R66 (its first sentence): a host read changes nothing of the block; only the value it answers and the model's own
counter of free values can differ (log entries A4, A5). -/
def Obligations.ReadsHaveNoSideEffect : Prop :=
  ∀ (s t : State) (off : Offset), step (s.upNext (.host (.read off))) = .next t →
    ∃ v, t = { s with busResp := some v, freeCtr := t.freeCtr }

/-- R34, R36: a write to an operand register stores the full value, at any time, and touches nothing else; no command
writes one; a command in flight does not see it (its outcome is the same but for the registers themselves). -/
def Obligations.OperandRegistersAreLatched : Prop :=
  (∀ (s : State) (v : Word),
    step (s.upNext (.host (.write 0x030#18 v))) = .next { s with busResp := none, opa := v } ∧
    step (s.upNext (.host (.write 0x038#18 v))) = .next { s with busResp := none, opb := v } ∧
    step (s.upNext (.host (.write 0x040#18 v))) = .next { s with busResp := none, opc := v } ∧
    step (s.upNext (.host (.write 0x050#18 v))) = .next { s with busResp := none, msgLen := v } ∧
    step (s.upNext (.host (.read 0x030#18))) = .next { s with busResp := some s.opa } ∧
    step (s.upNext (.host (.read 0x038#18))) = .next { s with busResp := some s.opb } ∧
    step (s.upNext (.host (.read 0x040#18))) = .next { s with busResp := some s.opc } ∧
    step (s.upNext (.host (.read 0x050#18))) = .next { s with busResp := some s.msgLen }) ∧
  (∀ (i : Instr) (s t : State), exec i s = .next t →
    t.opa = s.opa ∧ t.opb = s.opb ∧ t.opc = s.opc ∧ t.msgLen = s.msgLen) ∧
  ∀ (i : Instr) (s : State) (a b c l : Word),
    SameOutcome (fun t => { t with opa := a, opb := b, opc := c, msgLen := l })
      (exec i s) (exec i { s with opa := a, opb := b, opc := c, msgLen := l })

/-- R101 (its read-only rows): a write to a read-only register or to a mapped `DEC_BUF` entry is ignored. -/
def Obligations.ReadOnlyWritesAreIgnored : Prop :=
  ∀ (s : State) (off : Offset) (v : Word),
    (off ∈ [0x000#18, 0x008#18, 0x018#18, 0x048#18, 0x058#18, 0x060#18, 0x068#18, 0x070#18, 0x078#18, 0x080#18,
            0x088#18] ∨ ∃ i, i < s.cfg.msgMax ∧ off.toNat = 0x30000 + 8 * i) →
      step (s.upNext (.host (.write off v))) = .next { s with busResp := none }

/-- R23: a `CTRL` write with bit 1 clear stores `IRQ_EN` and nothing else; with bit 1 set it is the soft reset, whatever
bit 0 is, and leaves `IRQ_EN` = 0; a read gives zext_64(IRQ_EN); after reset `IRQ_EN` = 0. -/
def Obligations.ControlRegisterWrites : Prop :=
  ∀ (s : State) (v : Word),
    (v.getLsbD 1 = false →
      step (s.upNext (.host (.write 0x010#18 v))) = .next { s with busResp := none, irqEn := v.getLsbD 0 }) ∧
    (v.getLsbD 1 = true →
      step (s.upNext (.host (.write 0x010#18 v))) = .next (State.softReset { s with busResp := none }) ∧
      (State.softReset { s with busResp := none }).irqEn = false) ∧
    step (s.upNext (.host (.read 0x010#18))) = .next { s with busResp := some (if s.irqEn then 1#64 else 0#64) } ∧
    State.reset.irqEn = false

/-- R32 (the host's side): `IRQ_STATUS` is write-one-to-clear in bit 0, ignores the other bits, and reads `DONE_PEND`. -/
def Obligations.InterruptStatusIsWriteOneToClear : Prop :=
  ∀ (s : State) (v : Word),
    step (s.upNext (.host (.write 0x020#18 v))) =
      .next { s with busResp := none, donePend := if v.getLsbD 0 then false else s.donePend } ∧
    step (s.upNext (.host (.read 0x020#18))) = .next { s with busResp := some (if s.donePend then 1#64 else 0#64) }

/-- R208, R209: the interrupt is `DONE_PEND AND IRQ_EN`, and over any step `DONE_PEND` rises only where a command in
flight completes and falls only by a host write of 1 to `IRQ_STATUS` bit 0 or by a reset. -/
def Obligations.CompletionIsTheOnlyInterruptSource : Prop :=
  (∀ s : State, s.irq = (s.donePend && s.irqEn)) ∧
  ∀ s t : State, step s = .next t →
    (s.donePend = false → t.donePend = true →
      (s.inputs = [] ∨ s.inputs.head? = some .sequencer) ∧ s.seq = .run ∧ t.seq = .idle) ∧
    (s.donePend = true → t.donePend = false →
      ResetNext s ∨ ∃ v : Word, v.getLsbD 0 = true ∧ s.inputs.head? = some (.host (.write 0x020#18 v)))

/-! ## Buffers -/

/-- R38, R39 (the host's side): to an idle block, a write of v to `MSG_BUF[i]` stores v[7:0] and a write to `CT_BUF[i]`
stores v, every other entry and register is unchanged, and a read gives the entry back. -/
def Obligations.BufferWriteThenRead : Prop :=
  ∀ (s : State) (i : Nat) (v : Word), s.status.busy = false → i < s.cfg.msgMax →
    (∃ t, step (s.upNext (.host (.write (BitVec.ofNat 18 (0x10000 + 8 * i)) v))) = .next t ∧
      bufGet t.mem.msg i = some (v.extractLsb' 0 8) ∧ (∀ j, j ≠ i → bufGet t.mem.msg j = bufGet s.mem.msg j) ∧
      t = { s with busResp := none, mem := { s.mem with msg := t.mem.msg } } ∧
      step (t.upNext (.host (.read (BitVec.ofNat 18 (0x10000 + 8 * i))))) =
        .next { t with busResp := some ((v.extractLsb' 0 8).setWidth 64) }) ∧
    (∃ t, step (s.upNext (.host (.write (BitVec.ofNat 18 (0x20000 + 8 * i)) v))) = .next t ∧
      bufGet t.mem.ct i = some v ∧ (∀ j, j ≠ i → bufGet t.mem.ct j = bufGet s.mem.ct j) ∧
      t = { s with busResp := none, mem := { s.mem with ct := t.mem.ct } } ∧
      step (t.upNext (.host (.read (BitVec.ofNat 18 (0x20000 + 8 * i))))) = .next { t with busResp := some v })

/-- R38 to R40, R100: with no command in flight, a host read of a written entry of each buffer answers the entry (the byte
zero-extended) and changes nothing; and so (R241) a read of the output entries below LLEN answers what a successful `ENCRYPT`
or `DECRYPT` has stored, at once after its completion. -/
def Obligations.StoredEntriesReadBack : Prop :=
  (∀ (s : State) (i : Nat), s.status.busy = false → i < s.cfg.msgMax →
    (∀ b, bufGet s.mem.msg i = some b →
      step (s.upNext (.host (.read (BitVec.ofNat 18 (0x10000 + 8 * i))))) =
        .next { s with busResp := some (b.setWidth 64) }) ∧
    (∀ c, bufGet s.mem.ct i = some c →
      step (s.upNext (.host (.read (BitVec.ofNat 18 (0x20000 + 8 * i))))) = .next { s with busResp := some c }) ∧
    (∀ m, bufGet s.mem.dec i = some m →
      step (s.upNext (.host (.read (BitVec.ofNat 18 (0x30000 + 8 * i))))) = .next { s with busResp := some m })) ∧
  ∀ (s t : State) (i : Nat), i < s.latch.llen.toNat → t.status.errcode = .ok →
    (exec .encrypt s = .next t →
      ∃ b c, bufGet s.mem.msg i = some b ∧ c = wordOf (modExpValue b.toNat s.keys.e.toNat s.keys.n.toNat) ∧
        step (t.upNext (.host (.read (BitVec.ofNat 18 (0x20000 + 8 * i))))) = .next { t with busResp := some c }) ∧
    (exec .decrypt s = .next t →
      ∃ c m, bufGet s.mem.ct i = some c ∧ m = wordOf (modExpValue c.toNat s.keys.d.toNat s.keys.n.toNat) ∧
        step (t.upNext (.host (.read (BitVec.ofNat 18 (0x30000 + 8 * i))))) = .next { t with busResp := some m })

/-- R68: host access to the buffers while a command is in flight. An UNSPECIFIED read answers some value, about which
nothing is said. -/
def Obligations.BuffersWhileBusy : Prop :=
  ∀ (s : State) (i : Nat) (v : Word), s.status.busy = true → i < s.cfg.msgMax →
    step (s.upNext (.host (.write (BitVec.ofNat 18 (0x10000 + 8 * i)) v))) = .next { s with busResp := none } ∧
    step (s.upNext (.host (.write (BitVec.ofNat 18 (0x20000 + 8 * i)) v))) = .next { s with busResp := none } ∧
    (∀ b, bufGet s.mem.msg i = some b →
      step (s.upNext (.host (.read (BitVec.ofNat 18 (0x10000 + 8 * i))))) =
        .next { s with busResp := some (b.setWidth 64) }) ∧
    (decode s.latch.lw = .command .encrypt →
      ∃ x, step (s.upNext (.host (.read (BitVec.ofNat 18 (0x20000 + 8 * i))))) =
        .next { s with busResp := some x, freeCtr := s.freeCtr + 1 }) ∧
    (decode s.latch.lw = .command .decrypt →
      ∃ x, step (s.upNext (.host (.read (BitVec.ofNat 18 (0x30000 + 8 * i))))) =
        .next { s with busResp := some x, freeCtr := s.freeCtr + 1 }) ∧
    (decode s.latch.lw ≠ .command .encrypt → ∀ c, bufGet s.mem.ct i = some c →
      step (s.upNext (.host (.read (BitVec.ofNat 18 (0x20000 + 8 * i))))) = .next { s with busResp := some c }) ∧
    (decode s.latch.lw ≠ .command .decrypt → ∀ c, bufGet s.mem.dec i = some c →
      step (s.upNext (.host (.read (BitVec.ofNat 18 (0x30000 + 8 * i))))) = .next { s with busResp := some c })

/-- R48 (93 I1): a read of an entry nothing has written is the model's fault, by the host, by `ENCRYPT` (its first
unwritten `MSG_BUF` entry below LLEN) and by `DECRYPT` (its first unwritten `CT_BUF` entry below LLEN). -/
def Obligations.UnwrittenReadsFault : Prop :=
  ∀ (s : State) (i : Nat), i < s.cfg.msgMax →
    (bufGet s.mem.msg i = none →
      step (s.upNext (.host (.read (BitVec.ofNat 18 (0x10000 + 8 * i))))) = .fault (.unwrittenRead .msg i)) ∧
    (bufGet s.mem.ct i = none → (s.status.busy = false ∨ decode s.latch.lw ≠ .command .encrypt) →
      step (s.upNext (.host (.read (BitVec.ofNat 18 (0x20000 + 8 * i))))) = .fault (.unwrittenRead .ct i)) ∧
    (bufGet s.mem.dec i = none → (s.status.busy = false ∨ decode s.latch.lw ≠ .command .decrypt) →
      step (s.upNext (.host (.read (BitVec.ofNat 18 (0x30000 + 8 * i))))) = .fault (.unwrittenRead .dec i)) ∧
    (s.status.keyValid = true → s.latch.llen.toNat ≤ s.cfg.msgMax → i < s.latch.llen.toNat →
      (bufGet s.mem.msg i = none → (∀ j, j < i → (bufGet s.mem.msg j).isSome) →
        exec .encrypt s = .fault (.unwrittenRead .msg i)) ∧
      (bufGet s.mem.ct i = none → (∀ j, j < i → (bufGet s.mem.ct j).isSome) →
        exec .decrypt s = .fault (.unwrittenRead .ct i)))

/-! ## Resets -/

/-- R232: after either reset, and in the state after reset, every register reads its reset value, the block is idle and
`irq` is low. -/
def Obligations.ResetRegistersReadSpecValues : Prop :=
  ∀ s t : State,
    ((∃ l, step { s with inputs := .hardReset :: l } = .next t) ∨
      (∃ l v, v.getLsbD 1 = true ∧ step { s with inputs := .host (.write 0x010#18 v) :: l } = .next t) ∨
      t = State.reset) →
    (∀ r : Reg, t.readReg r = if r = .id then 0x5253415F434F5245#64 else if r = .cfg then cfgWord t.cfg else 0#64) ∧
    t.irq = false ∧ t.seq = .idle ∧
    (∀ w : Word, (w = 0x7#64 ∨ w = 0x8#64) →
      ∃ u x, step (t.upNext (.host (.write 0x028#18 w))) = .next u ∧ step (u.upNext .sequencer) = .next x ∧
        x.status.errcode = .noKey)

/-- R230: the hard reset: every register at its reset value, `SEQ` = IDLE, no completion, no pending draw and a later
answer discarded, every buffer entry unwritten; `ID` and `CFG` are not affected. (It says nothing of the latches, which are
UNSPECIFIED.) -/
def Obligations.HardResetForgetsTheBuffers : Prop :=
  ∀ s : State, ∃ t, step (s.upNext .hardReset) = .next t ∧
    (∀ i, bufGet t.mem.msg i = none ∧ bufGet t.mem.ct i = none ∧ bufGet t.mem.dec i = none) ∧
    (∀ r : Reg, t.readReg r = if r = .id then 0x5253415F434F5245#64 else if r = .cfg then cfgWord s.cfg else 0#64) ∧
    t.seq = .idle ∧ t.status.done = false ∧ t.donePend = false ∧ t.rngAnswers = [] ∧
    ∀ v : Word, step (t.upNext (.rngAnswer v)) = .next t

/-- R231: the soft reset does to the registers what the hard reset does, and keeps the buffers, but for the output
entries below LLEN of an abandoned cipher command, which become unwritten. -/
def Obligations.SoftResetKeepsTheBuffers : Prop :=
  ∀ (s : State) (v : Word), v.getLsbD 1 = true →
    ∃ t, step (s.upNext (.host (.write 0x010#18 v))) = .next t ∧
      (∀ r : Reg, t.readReg r = if r = .id then 0x5253415F434F5245#64 else if r = .cfg then cfgWord s.cfg else 0#64) ∧
      t.seq = .idle ∧ t.status.done = false ∧ t.donePend = false ∧ t.awaitsDraw = false ∧ t.rngAnswers = [] ∧
      ∀ i, bufGet t.mem.msg i = bufGet s.mem.msg i ∧
        bufGet t.mem.ct i =
          (if s.status.busy = true ∧ decode s.latch.lw = .command .encrypt ∧ i < s.latch.llen.toNat then none
            else bufGet s.mem.ct i) ∧
        bufGet t.mem.dec i =
          (if s.status.busy = true ∧ decode s.latch.lw = .command .decrypt ∧ i < s.latch.llen.toNat then none
            else bufGet s.mem.dec i)

/-! ## The arithmetic commands -/

/-- R106: `NOP` writes nothing but the completion status, in every state; issued to an idle block it sets `DONE_PEND` and
leaves `ERRCODE` = 0 and `OVR` = 0, whatever they were. -/
def Obligations.NopOnlyCompletes : Prop :=
  (∀ s : State, ∃ t, exec .nop s = .next t ∧ Ended s t .ok ∧ t.res = s.res ∧ KeysKept s t ∧ EntriesKept s t ∧
    HostSideKept s t) ∧
  ∀ s : State, s.status.busy = false →
    ∃ t, IssuedAndEnded s 0x0#64 t ∧ t.donePend = true ∧ t.status.errcode = .ok ∧ t.status.ovr = false ∧
      t.res = s.res ∧ KeysKept s t ∧ EntriesKept s t

/-- R130, R131: `PRIME_TEST` answers 1 exactly for the primes, for every 64-bit operand, and writes only `RES` and the
completion status. -/
def Obligations.PrimeTestDecidesPrimality : Prop :=
  ∀ s : State, ∃ t, exec .primeTest s = .next t ∧
    (s.latch.la.toNat.Prime → t.res = 1#64) ∧ (¬ s.latch.la.toNat.Prime → t.res = 0#64) ∧
    Ended s t .ok ∧ KeysKept s t ∧ EntriesKept s t ∧ HostSideKept s t

/-- R140, R141: `GCD` answers the greatest common divisor, with Gcd(0, 0) = 0, for every pair of operands. -/
def Obligations.GcdIsTheGreatestCommonDivisor : Prop :=
  ∀ s : State, ∃ t, exec .gcd s = .next t ∧ t.res.toNat = Nat.gcd s.latch.la.toNat s.latch.lb.toNat ∧
    Ended s t .ok ∧ KeysKept s t ∧ EntriesKept s t ∧ HostSideKept s t

/-- R145, R146: `MODINV` with its checks in order. With φ ≥ 2 and gcd(e, φ) = 1 the result is the unique d with
0 ≤ d < φ and (e·d) mod φ = 1. -/
def Obligations.ModinvChecksThenInverts : Prop :=
  ∀ s : State, ∃ t, exec .modinv s = .next t ∧ KeysKept s t ∧ EntriesKept s t ∧ HostSideKept s t ∧
    if s.latch.lb.toNat = 1 then Ended s t .ok ∧ t.res = 0#64
    else if s.latch.lb.toNat = 0 then Ended s t .divZero ∧ t.res = s.res
    else if Nat.gcd s.latch.la.toNat s.latch.lb.toNat ≠ 1 then Ended s t .notCoprime ∧ t.res = s.res
    else Ended s t .ok ∧ t.res.toNat < s.latch.lb.toNat ∧ s.latch.la.toNat * t.res.toNat % s.latch.lb.toNat = 1

/-- R161, R162: `MODEXP` rejects mod = 0; otherwise the result is 1 for exp = 0, whatever the modulus, and
base^exp mod mod for exp ≥ 1. -/
def Obligations.ModexpIsThePowerModulo : Prop :=
  ∀ s : State, ∃ t, exec .modexp s = .next t ∧ KeysKept s t ∧ EntriesKept s t ∧ HostSideKept s t ∧
    if s.latch.lc.toNat = 0 then Ended s t .divZero ∧ t.res = s.res
    else Ended s t .ok ∧
      (s.latch.lb.toNat = 0 → t.res = 1#64) ∧
      (s.latch.lb.toNat ≠ 0 → t.res.toNat = s.latch.la.toNat ^ s.latch.lb.toNat % s.latch.lc.toNat)

/-- R35: over any step, `RES` changes only by the successful completion of one of the four arithmetic commands, or by a
reset, which sets it to 0. -/
def Obligations.ResultChangesOnlyBySuccess : Prop :=
  ∀ s t : State, step s = .next t →
    (ResetNext s → t.res = 0#64) ∧
    (t.res = s.res ∨ ResetNext s ∨
    (t.status.errcode = .ok ∧ t.status.done = true ∧ (Runs s .primeTest ∨ Runs s .gcd ∨ Runs s .modinv ∨ Runs s .modexp)))

/-! ## Key generation -/

/-- R175 to R178, R181: `KEYGEN_FORCED` for every pair of operands: the rejected pairs, the modulus gate, and the key. -/
def Obligations.KeygenForcedOutcome : Prop :=
  ∀ s : State,
    let p := s.latch.la.toNat
    let q := s.latch.lb.toNat
    ∃ t, exec .keygenForced s = .next t ∧ t.res = s.res ∧ t.draws = 0#64 ∧ EntriesKept s t ∧ HostSideKept s t ∧
      if ¬ (p < 2 ^ 32 ∧ q < 2 ^ 32 ∧ p.Prime ∧ q.Prime ∧ p ≠ q) then
        Ended s t .badForcedPrimes ∧ t.status.keyValid = false ∧ KeyFailedAs 0 0 0 0 t.keys
      else if p * q ≤ 255 then
        Ended s t .modulusTooSmall ∧ t.status.keyValid = false ∧
          KeyFailedAs p q (p * q) ((p - 1) * (q - 1)) t.keys
      else Ended s t .ok ∧ t.status.keyValid = true ∧ KeyOf p q t.keys

/-- R171, R173, R177: `KEYGEN_RAND` whose draws are rejected ones `xs`, a prime p, rejected ones `ys`, a prime q ≠ p, within
KEYGEN_MAX_DRAWS: the key of p and q, and `DRAWS` counts every draw. -/
def Obligations.KeygenRandSucceeds : Prop :=
  ∀ (s : State) (xs ys zs : List Word) (p q : Word),
    s.rngAnswers = xs ++ p :: (ys ++ q :: zs) → xs.length + ys.length + 2 ≤ s.cfg.maxDraws →
    (∀ r ∈ xs, rejectedDraw 0 r) → drawnPrime p.toNat →
    (∀ r ∈ ys, rejectedDraw p.toNat r) → drawnPrime q.toNat → q ≠ p →
    ∃ t, exec .keygenRand s = .next t ∧ Ended s t .ok ∧ t.status.keyValid = true ∧
      KeyOf p.toNat q.toNat t.keys ∧ t.draws.toNat = xs.length + ys.length + 2 ∧
      t.res = s.res ∧ EntriesKept s t ∧ HostSideKept s t

/-- R171, R173, R178: the error ends of `KEYGEN_RAND`, in the first loop (no prime yet) and in the second (p found):
a draw out of range, and the draw bound reached. -/
def Obligations.KeygenRandFails : Prop :=
  ∀ s : State,
    (∀ (xs zs : List Word) (r : Word), s.rngAnswers = xs ++ r :: zs → xs.length < s.cfg.maxDraws →
      (∀ x ∈ xs, rejectedDraw 0 x) → (r.toNat < 100 ∨ 1000 < r.toNat) →
      ∃ t, exec .keygenRand s = .next t ∧ Ended s t .rngRange ∧ t.status.keyValid = false ∧
        KeyFailedAs 0 0 0 0 t.keys ∧ t.draws.toNat = xs.length + 1 ∧ t.res = s.res ∧ EntriesKept s t ∧ HostSideKept s t) ∧
    (∀ (xs ys zs : List Word) (p r : Word), s.rngAnswers = xs ++ p :: (ys ++ r :: zs) →
      xs.length + ys.length + 1 < s.cfg.maxDraws →
      (∀ x ∈ xs, rejectedDraw 0 x) → drawnPrime p.toNat → (∀ x ∈ ys, rejectedDraw p.toNat x) →
      (r.toNat < 100 ∨ 1000 < r.toNat) →
      ∃ t, exec .keygenRand s = .next t ∧ Ended s t .rngRange ∧ t.status.keyValid = false ∧
        KeyFailedAs p.toNat 0 0 0 t.keys ∧ t.draws.toNat = xs.length + ys.length + 2 ∧ t.res = s.res ∧
        EntriesKept s t ∧ HostSideKept s t) ∧
    (∀ xs zs : List Word, s.rngAnswers = xs ++ zs → xs.length = s.cfg.maxDraws → (∀ x ∈ xs, rejectedDraw 0 x) →
      ∃ t, exec .keygenRand s = .next t ∧ Ended s t .drawsExhausted ∧ t.status.keyValid = false ∧
        KeyFailedAs 0 0 0 0 t.keys ∧ t.draws.toNat = s.cfg.maxDraws ∧ t.res = s.res ∧ EntriesKept s t ∧ HostSideKept s t) ∧
    (∀ (xs ys zs : List Word) (p : Word), s.rngAnswers = xs ++ p :: (ys ++ zs) →
      xs.length + ys.length + 1 = s.cfg.maxDraws →
      (∀ x ∈ xs, rejectedDraw 0 x) → drawnPrime p.toNat → (∀ x ∈ ys, rejectedDraw p.toNat x) →
      ∃ t, exec .keygenRand s = .next t ∧ Ended s t .drawsExhausted ∧ t.status.keyValid = false ∧
        KeyFailedAs p.toNat 0 0 0 t.keys ∧ t.draws.toNat = s.cfg.maxDraws ∧ t.res = s.res ∧ EntriesKept s t ∧
        HostSideKept s t)

/-- R172: while the draws received are all rejected, or one prime and then rejected ones, and the bound is not reached,
the `KEYGEN_RAND` stays in flight; the next answer of the random source is received, and no answer is received by a block
that does not ask: an idle block, one with another command in flight, and one whose `KEYGEN_RAND` can already end (two primes
drawn, a draw out of range, the bound reached) do not ask (log entries A6, A7). -/
def Obligations.KeygenRandWaitsForDraws : Prop :=
  (∀ (s : State) (xs ys : List Word) (p : Word), s.status.busy = true → s.seq = .run →
    decode s.latch.lw = .command .keygenRand → s.rngAnswers.length < s.cfg.maxDraws →
    (s.rngAnswers = xs ∨ s.rngAnswers = xs ++ p :: ys ∧ drawnPrime p.toNat ∧ ∀ r ∈ ys, rejectedDraw p.toNat r) →
    (∀ r ∈ xs, rejectedDraw 0 r) →
    step (s.upNext .sequencer) = .next s ∧
    ∀ v, step (s.upNext (.rngAnswer v)) = .next { s with rngAnswers := s.rngAnswers ++ [v] }) ∧
  (∀ (s : State) (v : Word), s.awaitsDraw = false → step (s.upNext (.rngAnswer v)) = .next s) ∧
  ∀ s : State,
    (s.status.busy = false ∨ decode s.latch.lw ≠ .command .keygenRand ∨ exec .keygenRand s ≠ .next s) →
      s.awaitsDraw = false

/-- R181: which errors a key generation can report. `KEYGEN_RAND` that completes never reports `MODULUS_TOO_SMALL`, neither
command reports `NO_COPRIME_EXPONENT`, and `KEYGEN_FORCED` reports `MODULUS_TOO_SMALL` exactly for accepted primes with
p·q ≤ 255. -/
def Obligations.KeygenErrorReachability : Prop :=
  (∀ s t : State, exec .keygenRand s = .next t → t = s ∨
    (t.status.errcode = .ok ∧ 10403 ≤ t.keys.n.toNat) ∨ t.status.errcode = .drawsExhausted ∨
      t.status.errcode = .rngRange) ∧
  ∀ s t : State, exec .keygenForced s = .next t →
    t.status.errcode ≠ .noCoprimeExponent ∧
    (t.status.errcode = .modulusTooSmall ↔
      (s.latch.la.toNat < 2 ^ 32 ∧ s.latch.lb.toNat < 2 ^ 32 ∧ s.latch.la.toNat.Prime ∧ s.latch.lb.toNat.Prime ∧
        s.latch.la.toNat ≠ s.latch.lb.toNat ∧ s.latch.la.toNat * s.latch.lb.toNat ≤ 255))

/-- R28: over any step, `KEY_VALID` changes only by the completion of a key generation (1 exactly on success) or by a
reset (0); while it is 1 in a run, the key registers satisfy R44. -/
def Obligations.KeyValidChangesOnlyByKeygen : Prop :=
  (∀ s t : State, step s = .next t →
    (ResetNext s → t.status.keyValid = false) ∧
    ((Runs s .keygenRand ∨ Runs s .keygenForced) → t.seq = .idle →
      (t.status.keyValid = true ↔ t.status.errcode = .ok)) ∧
    (t.status.keyValid ≠ s.status.keyValid →
      ResetNext s ∨ ((Runs s .keygenRand ∨ Runs s .keygenForced) ∧ t.seq = .idle))) ∧
  ∀ s : State, Reachable s → s.status.keyValid = true → KeyInv s.keys

/-- R43: over any step, the six key registers change only by the completion of a key generation or by a reset, which
clears them; no other command's outcome depends on `KEY_P`, `KEY_Q` or `KEY_PHI`; the host reads all six. `DRAWS` changes
at the same steps only (R37). -/
def Obligations.KeyRegistersChangeOnlyByKeygen : Prop :=
  (∀ s t : State, step s = .next t →
    (ResetNext s → t.keys = ⟨0#64, 0#64, 0#64, 0#64, 0#64, 0#64⟩ ∧ t.draws = 0#64) ∧
    ((t.keys ≠ s.keys ∨ t.draws ≠ s.draws) →
      ResetNext s ∨ ((Runs s .keygenRand ∨ Runs s .keygenForced) ∧ t.seq = .idle))) ∧
  (∀ (i : Instr) (s : State) (p q f : Word), i ≠ .keygenRand → i ≠ .keygenForced →
    SameOutcome (fun t => { t with keys := { t.keys with p := p, q := q, phi := f } })
      (exec i s) (exec i { s with keys := { s.keys with p := p, q := q, phi := f } })) ∧
  ∀ s : State,
    step (s.upNext (.host (.read 0x060#18))) = .next { s with busResp := some s.keys.p } ∧
    step (s.upNext (.host (.read 0x068#18))) = .next { s with busResp := some s.keys.q } ∧
    step (s.upNext (.host (.read 0x070#18))) = .next { s with busResp := some s.keys.n } ∧
    step (s.upNext (.host (.read 0x078#18))) = .next { s with busResp := some s.keys.phi } ∧
    step (s.upNext (.host (.read 0x080#18))) = .next { s with busResp := some s.keys.e } ∧
    step (s.upNext (.host (.read 0x088#18))) = .next { s with busResp := some s.keys.d }

/-! ## The cipher -/

/-- R191, R193: `ENCRYPT` with its checks in order: `NO_KEY`, then `MSG_LEN`, then every entry below LLEN, all written
entries; entries at or above LLEN are unchanged. -/
def Obligations.EncryptOutcome : Prop :=
  ∀ s : State,
    (s.status.keyValid = false →
      ∃ t, exec .encrypt s = .next t ∧ Ended s t .noKey ∧ EntriesKept s t ∧ t.res = s.res ∧ KeysKept s t ∧ HostSideKept s t) ∧
    (s.status.keyValid = true → s.cfg.msgMax < s.latch.llen.toNat →
      ∃ t, exec .encrypt s = .next t ∧ Ended s t .msgLen ∧ EntriesKept s t ∧ t.res = s.res ∧ KeysKept s t ∧ HostSideKept s t) ∧
    (s.status.keyValid = true → s.latch.llen.toNat ≤ s.cfg.msgMax →
      (∀ i, i < s.latch.llen.toNat → (bufGet s.mem.msg i).isSome) → s.keys.e.toNat ≠ 0 → s.keys.n.toNat ≠ 0 →
      ∃ t, exec .encrypt s = .next t ∧ Ended s t .ok ∧ t.res = s.res ∧ KeysKept s t ∧ HostSideKept s t ∧
        (∀ i b, i < s.latch.llen.toNat → bufGet s.mem.msg i = some b →
          ∃ c, bufGet t.mem.ct i = some c ∧ c.toNat = b.toNat ^ s.keys.e.toNat % s.keys.n.toNat) ∧
        ∀ i, (s.latch.llen.toNat ≤ i → bufGet t.mem.ct i = bufGet s.mem.ct i) ∧
          bufGet t.mem.msg i = bufGet s.mem.msg i ∧ bufGet t.mem.dec i = bufGet s.mem.dec i)

/-- R192, R193: `DECRYPT`, as `ENCRYPT`; a ciphertext at or above n is reduced and the full value is stored. -/
def Obligations.DecryptOutcome : Prop :=
  ∀ s : State,
    (s.status.keyValid = false →
      ∃ t, exec .decrypt s = .next t ∧ Ended s t .noKey ∧ EntriesKept s t ∧ t.res = s.res ∧ KeysKept s t ∧ HostSideKept s t) ∧
    (s.status.keyValid = true → s.cfg.msgMax < s.latch.llen.toNat →
      ∃ t, exec .decrypt s = .next t ∧ Ended s t .msgLen ∧ EntriesKept s t ∧ t.res = s.res ∧ KeysKept s t ∧ HostSideKept s t) ∧
    (s.status.keyValid = true → s.latch.llen.toNat ≤ s.cfg.msgMax →
      (∀ i, i < s.latch.llen.toNat → (bufGet s.mem.ct i).isSome) → s.keys.d.toNat ≠ 0 → s.keys.n.toNat ≠ 0 →
      ∃ t, exec .decrypt s = .next t ∧ Ended s t .ok ∧ t.res = s.res ∧ KeysKept s t ∧ HostSideKept s t ∧
        (∀ i c, i < s.latch.llen.toNat → bufGet s.mem.ct i = some c →
          ∃ m, bufGet t.mem.dec i = some m ∧ m.toNat = c.toNat ^ s.keys.d.toNat % s.keys.n.toNat) ∧
        ∀ i, (s.latch.llen.toNat ≤ i → bufGet t.mem.dec i = bufGet s.mem.dec i) ∧
          bufGet t.mem.msg i = bufGet s.mem.msg i ∧ bufGet t.mem.ct i = bufGet s.mem.ct i)

/-- R194, the central correctness property: under a key that meets R44, encryption then decryption of the resulting
entries, with the same key and length, gives every byte back; and at the level of values, every v in [0, n) comes back. -/
def Obligations.RoundTripRecoversTheMessage : Prop :=
  (∀ k : KeyRegs, KeyInv k → ∀ v, v < k.n.toNat →
    modExpValue (modExpValue v k.e.toNat k.n.toNat) k.d.toNat k.n.toNat = v) ∧
  ∀ s : State, KeyInv s.keys → s.status.keyValid = true → s.latch.llen.toNat ≤ s.cfg.msgMax →
    (∀ i, i < s.latch.llen.toNat → (bufGet s.mem.msg i).isSome) →
    ∃ t, exec .encrypt s = .next t ∧
      ∀ t' : State, t'.keys = t.keys → t'.status.keyValid = true → t'.cfg = t.cfg → t'.mem.ct = t.mem.ct →
        t'.latch.llen = s.latch.llen →
        ∃ u, exec .decrypt t' = .next u ∧ u.status.errcode = .ok ∧
          ∀ i b, i < s.latch.llen.toNat → bufGet s.mem.msg i = some b → bufGet u.mem.dec i = some (b.setWidth 64)

/-- R195: under a valid key, every ciphertext entry `ENCRYPT` writes is below n. -/
def Obligations.CiphertextIsBelowTheModulus : Prop :=
  ∀ s : State, KeyInv s.keys → s.status.keyValid = true → s.latch.llen.toNat ≤ s.cfg.msgMax →
    (∀ i, i < s.latch.llen.toNat → (bufGet s.mem.msg i).isSome) →
    ∃ t, exec .encrypt s = .next t ∧
      ∀ i, i < s.latch.llen.toNat → ∃ c, bufGet t.mem.ct i = some c ∧ c.toNat < s.keys.n.toNat

/-- R190: each output entry depends only on its input entry and the key: two successful runs with the same key and the
same entry i give the same output entry i, whatever else differs. -/
def Obligations.CipherEntriesAreIndependent : Prop :=
  ∀ (s s' t t' : State) (i : Nat), s.keys = s'.keys → i < s.latch.llen.toNat → i < s'.latch.llen.toNat →
    t.status.errcode = .ok → t'.status.errcode = .ok →
    (exec .encrypt s = .next t → exec .encrypt s' = .next t' → bufGet s.mem.msg i = bufGet s'.mem.msg i →
      bufGet t.mem.ct i = bufGet t'.mem.ct i) ∧
    (exec .decrypt s = .next t → exec .decrypt s' = .next t' → bufGet s.mem.ct i = bufGet s'.mem.ct i →
      bufGet t.mem.dec i = bufGet t'.mem.dec i)

/-! ## Whole-machine rules -/

/-- R201, R202 (their last sentences): a command that ends with an error leaves `RES` and every buffer entry unchanged. -/
def Obligations.ErrorsLeaveResultsUnchanged : Prop :=
  ∀ (i : Instr) (s t : State), s.seq = .run → exec i s = .next t → t.seq = .idle → t.status.errcode ≠ .ok →
    t.res = s.res ∧ EntriesKept s t ∧ ((i ≠ .keygenRand ∧ i ≠ .keygenForced) → KeysKept s t)

/-- R29: what sets, clears and leaves `OVR`, over any step. -/
def Obligations.OverrunFlagRule : Prop :=
  ∀ s t : State, step s = .next t →
    (∀ w, CmdWriteNext s w → t.status.ovr = s.status.busy) ∧
    (ResetNext s → t.status.ovr = false) ∧
    (¬ ResetNext s → (∀ w, ¬ CmdWriteNext s w) → t.status.ovr = s.status.ovr)

/-- R31, R33: over any step, `LAST_OP` and `CMD` are those of the last accepted word; a dropped write changes neither. -/
def Obligations.LastCommandRule : Prop :=
  ∀ s t : State, step s = .next t →
    (∀ w, CmdWriteNext s w → s.status.busy = false → t.cmd = w ∧ t.status.lastOp = w.extractLsb' 0 8) ∧
    (ResetNext s → t.cmd = 0#64 ∧ t.status.lastOp = 0#8) ∧
    (¬ ResetNext s → (∀ w, CmdWriteNext s w → s.status.busy = true) →
      t.cmd = s.cmd ∧ t.status.lastOp = s.status.lastOp)

/-- 93 I2, with R41 "no rule reads them before the next acceptance writes them": in an idle block, whatever the latches
hold, the next step has the same outcome but for the latches. -/
def Obligations.IdleLatchesAreNeverObserved : Prop :=
  ∀ (s : State) (l : Latches), s.status.busy = false → s.seq = .idle →
    ∃ l' : Latches, SameOutcome (fun t => { t with latch := l' }) (step s) (step { s with latch := l })

/-- The invariant holds at reset. Its canonical-form and draw-list parts are the model's own (log entries A6, A8). -/
def Obligations.InvariantHoldsAtReset : Prop := ∀ s : State, Initial s → Inv s

/-- Every step keeps the invariant: canonical buffers within MSG_MAX, R25, R30, R31, R33, R42, the key invariant of R44
while `KEY_VALID` = 1, and the draw bound of R173. -/
def Obligations.InvariantKeptByEveryStep : Prop :=
  ∀ s t : State, Inv s → step s = .next t → Inv t

/-- R44, whole: in every state a run can reach, for any parameters and any interleaving. -/
def Obligations.ReachableKeysSatisfyTheKeyInvariant : Prop :=
  ∀ s : State, Reachable s → s.status.keyValid = true →
    s.keys.p.toNat.Prime ∧ s.keys.q.toNat.Prime ∧ s.keys.p ≠ s.keys.q ∧
    s.keys.n.toNat = s.keys.p.toNat * s.keys.q.toNat ∧ 255 < s.keys.n.toNat ∧
    s.keys.phi.toNat = (s.keys.p.toNat - 1) * (s.keys.q.toNat - 1) ∧
    Nat.gcd s.keys.e.toNat s.keys.phi.toNat = 1 ∧ 1 < s.keys.e.toNat ∧ s.keys.e.toNat < s.keys.phi.toNat ∧
    s.keys.e.toNat * s.keys.d.toNat % s.keys.phi.toNat = 1 ∧ s.keys.d.toNat < s.keys.phi.toNat

/-- R42, R25: in every reachable state `SEQ` = RUN exactly when `BUSY` = 1, and `BUSY` = 1 and `DONE` = 1 never hold
together. -/
def Obligations.ReachableStatusIsConsistent : Prop :=
  ∀ s : State, Reachable s →
    (s.seq = .run ↔ s.status.busy = true) ∧ ¬ (s.status.busy = true ∧ s.status.done = true)

/-- R247 (what completes): from any state with a command in flight that is no `KEYGEN_RAND` waiting for a draw and reads
no unwritten entry, the sequencer's turn ends the command. A cipher command reads entries only with `KEY_VALID` = 1 and
LLEN ≤ MSG_MAX (R191, R192). -/
def Obligations.SequencerTurnEndsTheCommand : Prop :=
  ∀ s : State, s.status.busy = true → s.seq = .run →
    (decode s.latch.lw = .command .keygenRand → s.awaitsDraw = false) →
    (decode s.latch.lw = .command .encrypt → s.status.keyValid = true → s.latch.llen.toNat ≤ s.cfg.msgMax →
      ∀ i, i < s.latch.llen.toNat → (bufGet s.mem.msg i).isSome) →
    (decode s.latch.lw = .command .decrypt → s.status.keyValid = true → s.latch.llen.toNat ≤ s.cfg.msgMax →
      ∀ i, i < s.latch.llen.toNat → (bufGet s.mem.ct i).isSome) →
    ∃ t, step (s.upNext .sequencer) = .next t ∧ t.status.busy = false ∧ t.status.done = true ∧ t.seq = .idle ∧
      t.donePend = true

/-! ## Host scripts -/

/-- R86: each statement makes its one transaction at the offset of the name it has, a register's or a buffer entry's, as the
block's next step; `wr` and `rd` go on to the next line; `bnz` goes to its label exactly when (value AND mask) ≠ 0. A label
on two lines takes the first (log entry A23). -/
def Obligations.HostStatementsMakeTheirTransactions : Prop :=
  (∀ (r : Reg) (i : Nat), (Target.reg r).offset = r.offset ∧ (i < 8192 →
    (Target.msg i).offset.toNat = 0x10000 + 8 * i ∧ (Target.ct i).offset.toNat = 0x20000 + 8 * i ∧
    (Target.dec i).offset.toNat = 0x30000 + 8 * i)) ∧
  ∀ (pre post : List Line) (ls : List Label) (name : Target) (s b : State),
    (∀ v, step (s.upNext (.host (.write name.offset v))) = .next b →
      HostRun.hostTurn ⟨pre ++ ⟨ls, .wr name v⟩ :: post, pre.length, s⟩ =
        .next ⟨pre ++ ⟨ls, .wr name v⟩ :: post, pre.length + 1, b⟩) ∧
    (step (s.upNext (.host (.read name.offset))) = .next b →
      HostRun.hostTurn ⟨pre ++ ⟨ls, .rd name⟩ :: post, pre.length, s⟩ =
        .next ⟨pre ++ ⟨ls, .rd name⟩ :: post, pre.length + 1, b⟩) ∧
    ∀ (mask v : Word) (l : Label) (k : Nat),
      findLabel l (pre ++ ⟨ls, .bnz name mask l⟩ :: post) = some k →
      step (s.upNext (.host (.read name.offset))) = .next b → b.busResp = some v →
      HostRun.hostTurn ⟨pre ++ ⟨ls, .bnz name mask l⟩ :: post, pre.length, s⟩ =
        .next ⟨pre ++ ⟨ls, .bnz name mask l⟩ :: post, if v &&& mask ≠ 0#64 then k else pre.length + 1, b⟩

/-- R86, R87: the `wait` loop. One pass of `L: bnz STATUS, 0x1, L` stays at its line while `BUSY` = 1, goes on once it is
0, and changes nothing of the block but the value the read answers. -/
def Obligations.WaitPollsTheBusyBit : Prop :=
  ∀ (pre post : List Line) (k : Nat) (s : State),
    (∀ l ∈ pre, Label.fresh k ∉ l.labels) →
    HostRun.hostTurn ⟨pre ++ waitLine k :: post, pre.length, s⟩ =
      .next ⟨pre ++ waitLine k :: post, if s.status.busy then pre.length else pre.length + 1,
        { s with busResp := some s.status.word }⟩
end

