-- ==== Sys2Proof/Laws/Arithmetic.lean ====
section
/-! SUPPORT. One lemma for each arithmetic function: what its loop computes, and that its bound on passes is enough (R130, R140, R145, R160, R179). -/

namespace Sys2Proof.Machine

/-! ### Euclid -/

theorem gcdLoop_eq_gcd (fuel a b : Nat) (h : b < fuel) : gcdLoop fuel a b = Nat.gcd a b := by
  induction fuel generalizing a b with
  | zero => omega
  | succ f ih =>
    by_cases hb : b = 0
    · simp [gcdLoop, hb]
    · have hlt : a % b < b := Nat.mod_lt _ (Nat.pos_of_ne_zero hb)
      rw [gcdLoop, if_neg hb, ih _ _ (by omega), Nat.gcd_comm a b, Nat.gcd_rec b a, Nat.gcd_comm]

theorem gcdValue_eq_gcd (a b : Nat) : gcdValue a b = Nat.gcd a b := gcdLoop_eq_gcd _ _ _ (Nat.lt_succ_self b)

/-! ### Trial division -/

theorem trialLoop_eq_true_iff (fuel n d : Nat) (hd : 2 ≤ d) (hf : n < fuel + d) :
    trialLoop fuel n d = true ↔ ∀ k, (d + 2 * k) * (d + 2 * k) ≤ n → ¬ d + 2 * k ∣ n := by
  induction fuel generalizing d with
  | zero =>
    simp only [trialLoop, true_iff]
    intro k hk
    nlinarith
  | succ f ih =>
    rw [trialLoop]
    by_cases h1 : d * d ≤ n
    · rw [if_pos h1]
      by_cases h2 : n % d = 0
      · rw [if_pos h2]
        simp only [Bool.false_eq_true, false_iff, not_forall]
        exact ⟨0, by simpa using h1, by simpa using Nat.dvd_of_mod_eq_zero h2⟩
      · rw [if_neg h2, ih (d + 2) (by omega) (by omega)]
        constructor
        · intro h k hk
          cases k with
          | zero => simpa using fun hd => h2 (Nat.mod_eq_zero_of_dvd hd)
          | succ k =>
            have e : d + 2 * (k + 1) = d + 2 + 2 * k := by ring
            rw [e] at hk ⊢
            exact h k hk
        · intro h k hk
          have e : d + 2 + 2 * k = d + 2 * (k + 1) := by ring
          rw [e] at hk ⊢
          exact h (k + 1) hk
    · rw [if_neg h1]
      simp only [true_iff]
      intro k hk
      exact absurd (le_trans (Nat.mul_le_mul (Nat.le_add_right d _) (Nat.le_add_right d _)) hk) h1

theorem isPrime_iff_prime (n : Nat) : isPrime n = true ↔ n.Prime := by
  unfold isPrime
  split_ifs with h1 h2 h3
  · simp only [false_iff]
    exact fun hp => by have := hp.two_le; omega
  · subst h2; simp [Nat.prime_two]
  · simp only [false_iff]
    intro hp
    exact h2 ((Nat.prime_dvd_prime_iff_eq Nat.prime_two hp).1 (Nat.dvd_of_mod_eq_zero h3)).symm
  · rw [trialLoop_eq_true_iff n n 3 (by omega) (by omega)]
    constructor
    · intro h
      rw [Nat.prime_def_minFac]
      refine ⟨by omega, ?_⟩
      by_contra hne
      have hmf : (Nat.minFac n).Prime := Nat.minFac_prime (by omega)
      have hdvd := Nat.minFac_dvd n
      have hnp : ¬ n.Prime := fun hp => hne (Nat.Prime.minFac_eq hp)
      have hsq : n.minFac ^ 2 ≤ n := Nat.minFac_sq_le_self (by omega) hnp
      have hodd : n.minFac % 2 = 1 := by
        rcases Nat.mod_two_eq_zero_or_one n.minFac with h0 | h1
        · exact absurd (Nat.mod_eq_zero_of_dvd (dvd_trans (Nat.dvd_of_mod_eq_zero h0) hdvd)) h3
        · exact h1
      have h3le : 3 ≤ n.minFac := by have := hmf.two_le; omega
      have e : 3 + 2 * ((n.minFac - 3) / 2) = n.minFac := by omega
      refine h ((n.minFac - 3) / 2) ?_ ?_
      · rw [e]; nlinarith
      · rw [e]; exact hdvd
    · intro hp k hk hd
      rcases (Nat.dvd_prime hp).1 hd with h | h
      · omega
      · rw [h] at hk; nlinarith

/-! ### Modular exponentiation -/

theorem modExpLoop_eq (fuel b x m acc : Nat) (hf : x ≤ fuel) (hx : x ≠ 0) :
    modExpLoop fuel b x m acc = acc * b ^ x % m := by
  induction fuel generalizing b x acc with
  | zero => omega
  | succ f ih =>
    rw [modExpLoop, if_neg hx]
    by_cases h2 : x / 2 = 0
    · have hx1 : x = 1 := by omega
      subst hx1
      cases f <;> simp [modExpLoop]
    · rw [ih _ _ _ (by omega) h2]
      rcases Nat.mod_two_eq_zero_or_one x with hp | hp
      · have e : b ^ x = (b * b) ^ (x / 2) := by
          rw [← pow_two, ← pow_mul]; congr 1; omega
        rw [if_neg (by omega), e, Nat.mul_mod, ← Nat.pow_mod, ← Nat.mul_mod]
      · have e : b ^ x = b * (b * b) ^ (x / 2) := by
          rw [← pow_two, ← pow_mul, ← pow_succ']; congr 1; omega
        rw [if_pos hp, e, ← mul_assoc, Nat.mul_mod (acc * b % m), Nat.mod_mod, ← Nat.pow_mod, ← Nat.mul_mod]

theorem modExpValue_eq_pow_mod (b x m : Nat) (hx : x ≠ 0) : modExpValue b x m = b ^ x % m := by
  rw [modExpValue, modExpLoop_eq _ _ _ _ _ le_rfl hx, one_mul, ← Nat.pow_mod]

theorem modExpValue_zero (b m : Nat) : modExpValue b 0 m = 1 := rfl

/-! ### The modular inverse -/

/-- The congruence of R145: both coefficients keep `coefficient · e ≡ remainder (mod φ)`. -/
theorem inverseLoop_congr (fuel e phi oldR r : Nat) (oldS s : Int) (hf : r < fuel)
    (h1 : (phi : Int) ∣ oldS * e - oldR) (h2 : (phi : Int) ∣ s * e - r) :
    (phi : Int) ∣ inverseLoop fuel oldR r oldS s * e - Nat.gcd oldR r := by
  induction fuel generalizing oldR r oldS s with
  | zero => omega
  | succ f ih =>
    rw [inverseLoop]
    by_cases hr : r = 0
    · simpa [hr] using h1
    · rw [if_neg hr]
      have hmod : oldR - oldR / r * r = oldR % r := by
        have := Nat.div_add_mod oldR r; rw [mul_comm] at this; omega
      have hlt : oldR % r < r := Nat.mod_lt _ (Nat.pos_of_ne_zero hr)
      have hg : Nat.gcd oldR r = Nat.gcd r (oldR % r) := by
        rw [Nat.gcd_comm oldR r, Nat.gcd_rec r oldR, Nat.gcd_comm]
      rw [hmod, hg]
      refine ih r (oldR % r) s _ (by omega) h2 ?_
      have hc : ((oldR % r : Nat) : Int) = oldR - (oldR / r : Nat) * r := by
        have := Nat.div_add_mod oldR r
        have h : (r : Int) * (oldR / r : Nat) + (oldR % r : Nat) = oldR := by exact_mod_cast this
        linarith
      rw [hc]
      have := dvd_sub h1 (Dvd.dvd.mul_left h2 ((oldR / r : Nat) : Int))
      have e1 : (oldS - ((oldR / r : Nat) : Int) * s) * e - (oldR - ((oldR / r : Nat) : Int) * r)
          = (oldS * e - oldR) - ((oldR / r : Nat) : Int) * (s * e - r) := by ring
      rw [e1]; exact this

/-- The bound of R145: the coefficients alternate in sign and `oldR·|s| + r·|oldS|` stays φ. `sg` is the sign of `s`. -/
theorem inverseLoop_bound (fuel phi oldR r : Nat) (oldS s : Int) (hf : r < fuel) (hphi : 2 ≤ phi)
    (hsg : (0 ≤ s ∧ oldS ≤ 0) ∨ (s ≤ 0 ∧ 0 ≤ oldS))
    (hinv : (oldR : Int) * |s| + r * |oldS| = phi) (hg : Nat.gcd oldR r = 1) (hlt : |oldS| < phi)
    (hord : s ≠ 0 → r < oldR) :
    |inverseLoop fuel oldR r oldS s| < phi := by
  induction fuel generalizing oldR r oldS s with
  | zero => omega
  | succ f ih =>
    rw [inverseLoop]
    by_cases hr : r = 0
    · simpa [hr] using hlt
    · rw [if_neg hr]
      have hrpos : 0 < r := Nat.pos_of_ne_zero hr
      have hmod : oldR - oldR / r * r = oldR % r := by
        have := Nat.div_add_mod oldR r; rw [mul_comm] at this; omega
      have hmlt : oldR % r < r := Nat.mod_lt _ hrpos
      have hg' : Nat.gcd r (oldR % r) = 1 := by
        rw [← hg, Nat.gcd_comm oldR r, Nat.gcd_rec r oldR, Nat.gcd_comm]
      have hc : ((oldR % r : Nat) : Int) = oldR - (oldR / r : Nat) * r := by
        have := Nat.div_add_mod oldR r
        have h : (r : Int) * (oldR / r : Nat) + (oldR % r : Nat) = oldR := by exact_mod_cast this
        linarith
      have hqn : (0 : Int) ≤ (oldR / r : Nat) := by positivity
      rw [hmod]
      have habs : |oldS - (oldR / r : Nat) * s| = |oldS| + (oldR / r : Nat) * |s| := by
        rcases hsg with ⟨h1, h2⟩ | ⟨h1, h2⟩
        · rw [abs_of_nonneg h1, abs_of_nonpos h2, abs_of_nonpos (by nlinarith [mul_nonneg hqn h1])]; ring
        · rw [abs_of_nonpos h1, abs_of_nonneg h2, abs_of_nonneg (by nlinarith [mul_nonneg hqn (neg_nonneg.2 h1)])]; ring
      refine ih r (oldR % r) s _ (by omega) ?_ ?_ hg' ?_ (fun _ => hmlt)
      · rcases hsg with ⟨h1, h2⟩ | ⟨h1, h2⟩
        · right; exact ⟨by nlinarith [mul_nonneg hqn h1], h1⟩
        · left; exact ⟨by nlinarith [mul_nonneg hqn (neg_nonneg.2 h1)], h1⟩
      · rw [habs, hc]; linarith
      · -- |s| < φ
        by_cases hs : s = 0
        · subst hs; simp; omega
        · have hro := hord hs
          have hspos : 0 < |s| := abs_pos.2 hs
          have h2 : (2 : Int) ≤ oldR := by omega
          have h3 : (0 : Int) ≤ r * |oldS| := by positivity
          nlinarith

theorem modInvValue_spec (e phi : Nat) (hphi : 2 ≤ phi) (hg : Nat.gcd e phi = 1) :
    e * modInvValue e phi % phi = 1 ∧ modInvValue e phi < phi := by
  have hb : |inverseLoop (phi + 1) e phi 1 0| < phi :=
    inverseLoop_bound _ _ _ _ _ _ (by omega) hphi (Or.inr ⟨le_rfl, by norm_num⟩) (by simp) hg (by simp; omega) (by simp)
  have hd : (phi : Int) ∣ inverseLoop (phi + 1) e phi 1 0 * e - 1 := by
    have := inverseLoop_congr (phi + 1) e phi e phi 1 0 (by omega) (by simp) (by simp)
    rwa [hg] at this
  have hb' := abs_lt.1 hb
  have key : ((modInvValue e phi : Nat) : Int) < phi ∧ (phi : Int) ∣ (modInvValue e phi : Nat) * e - 1 := by
    unfold modInvValue
    simp only
    split_ifs with hneg
    · rw [Int.toNat_of_nonneg (by linarith)]
      refine ⟨by linarith, ?_⟩
      have : (inverseLoop (phi + 1) e phi 1 0 + (phi : Int)) * e - 1
          = (inverseLoop (phi + 1) e phi 1 0 * e - 1) + phi * e := by ring
      rw [this]
      exact dvd_add hd (dvd_mul_right _ _)
    · rw [Int.toNat_of_nonneg (by linarith)]
      exact ⟨hb'.2, hd⟩
  refine ⟨?_, by exact_mod_cast key.1⟩
  have h1 : (e * modInvValue e phi : Nat) ≡ 1 [MOD phi] := by
    rw [← Int.natCast_modEq_iff]
    apply Int.ModEq.symm
    rw [Int.modEq_iff_dvd]
    push_cast
    rw [mul_comm]
    exact key.2
  have := h1
  unfold Nat.ModEq at this
  rw [this, Nat.mod_eq_of_lt (by omega)]

/-- R145: the value is the only one the invariant allows. -/
theorem modular_inverse_unique {e phi c d : Nat} (hg : Nat.gcd e phi = 1)
    (hc : e * c % phi = 1) (hd : e * d % phi = 1) (hcl : c < phi) (hdl : d < phi) : c = d := by
  have h : e * c ≡ e * d [MOD phi] := by unfold Nat.ModEq; rw [hc, hd]
  have h2 : c ≡ d [MOD phi] := Nat.ModEq.cancel_left_of_coprime (by rwa [Nat.gcd_comm]) h
  unfold Nat.ModEq at h2
  rwa [Nat.mod_eq_of_lt hcl, Nat.mod_eq_of_lt hdl] at h2

/-! ### The exponent scan -/

theorem scanExponent_spec (fuel phi e : Nat) (hf : phi ≤ fuel + e) :
    e ≤ scanExponent fuel phi e ∧
    (scanExponent fuel phi e < phi → Nat.gcd (scanExponent fuel phi e) phi = 1) ∧
    (∀ c, e ≤ c → c < scanExponent fuel phi e → Nat.gcd c phi ≠ 1) ∧
    (∀ c, e ≤ c → c < phi → Nat.gcd c phi = 1 → scanExponent fuel phi e ≤ c) := by
  induction fuel generalizing e with
  | zero =>
    simp only [scanExponent]
    refine ⟨le_rfl, fun h => by omega, fun c h1 h2 => by omega, fun c h1 h2 _ => h1⟩
  | succ f ih =>
    rw [scanExponent]
    split_ifs with h
    · rw [gcdValue_eq_gcd] at h
      obtain ⟨a, b, c, d⟩ := ih (e + Config.eStep) (by simp [Config.eStep]; omega)
      simp only [Config.eStep] at *
      refine ⟨by omega, b, fun x hx hlt => ?_, fun x hx hlt hg => ?_⟩
      · rcases Nat.eq_or_lt_of_le hx with rfl | hx
        · exact h.2
        · exact c x hx hlt
      · rcases Nat.eq_or_lt_of_le hx with rfl | hx
        · exact absurd hg h.2
        · exact d x hx hlt hg
    · rw [gcdValue_eq_gcd, not_and, not_not] at h
      exact ⟨le_rfl, h, fun c h1 h2 => by omega, fun c h1 _ _ => h1⟩

end Sys2Proof.Machine
end

