-- ==== Sys2Proof/Laws/Buffers.lean ====
section
/-! SUPPORT. What the buffer operations do: read after write, frames, canonical form (10_state.md R38 to R40, R48). -/

namespace Sys2Proof.Machine

theorem bufGet_bufSet_same {α : Type} (b : List (Nat × α)) (i : Nat) (v : α) : bufGet (bufSet b i v) i = some v := by
  induction b with
  | nil => simp [bufSet, bufGet]
  | cons x rest ih =>
    obtain ⟨k, y⟩ := x
    by_cases h1 : i < k
    · simp [bufSet, bufGet, h1]
    · by_cases h2 : i = k
      · simp [bufSet, bufGet, h2]
      · have h3 : k ≠ i := fun h => h2 h.symm
        simp [bufSet, bufGet, h1, h2, h3, ih]

theorem bufGet_bufSet_other {α : Type} (b : List (Nat × α)) (i j : Nat) (v : α) (h : j ≠ i) :
    bufGet (bufSet b i v) j = bufGet b j := by
  have hij : i ≠ j := fun e => h e.symm
  induction b with
  | nil => simp [bufSet, bufGet, hij]
  | cons x rest ih =>
    obtain ⟨k, y⟩ := x
    by_cases h1 : i < k
    · simp [bufSet, bufGet, h1, hij]
    · by_cases h2 : i = k
      · subst h2
        simp [bufSet, bufGet, hij]
      · simp only [bufSet, h1, h2, if_false, bufGet, ih]

theorem mem_bufSet {α : Type} {b : List (Nat × α)} {i : Nat} {v : α} {x : Nat × α} (h : x ∈ bufSet b i v) :
    x = (i, v) ∨ x ∈ b := by
  induction b with
  | nil => simpa [bufSet] using h
  | cons y rest ih =>
    obtain ⟨k, z⟩ := y
    simp only [bufSet] at h
    split_ifs at h with h1 h2
    · simpa using h
    · rcases List.mem_cons.1 h with h | h <;> simp [h]
    · rcases List.mem_cons.1 h with h | h
      · simp [h]
      · rcases ih h with h | h <;> simp [h]

theorem bufSorted_bufSet {α : Type} (b : List (Nat × α)) (i : Nat) (v : α) (hb : bufSorted b) :
    bufSorted (bufSet b i v) := by
  induction b with
  | nil => simp [bufSet, bufSorted]
  | cons y rest ih =>
    obtain ⟨k, z⟩ := y
    have ⟨hk, hr⟩ := List.pairwise_cons.1 hb
    simp only [bufSet]
    split_ifs with h1 h2
    · refine List.pairwise_cons.2 ⟨fun x hx => ?_, hb⟩
      rcases List.mem_cons.1 hx with rfl | hx
      · exact h1
      · exact lt_trans h1 (hk x hx)
    · subst h2
      exact List.pairwise_cons.2 ⟨hk, hr⟩
    · refine List.pairwise_cons.2 ⟨fun x hx => ?_, ih hr⟩
      rcases mem_bufSet hx with rfl | hx
      · exact lt_of_le_of_ne (not_lt.1 h1) (fun e => h2 e.symm)
      · exact hk x hx

theorem bufBelow_bufSet {α : Type} (b : List (Nat × α)) (i : Nat) (v : α) (cap : Nat) (hb : bufBelow b cap)
    (hi : i < cap) : bufBelow (bufSet b i v) cap := by
  intro x hx
  rcases mem_bufSet hx with rfl | hx
  · exact hi
  · exact hb x hx

theorem bufForget_eq_filter {α : Type} (b : List (Nat × α)) (n : Nat) :
    bufForget b n = b.filter (fun x => decide (n ≤ x.1)) := by
  induction b with
  | nil => rfl
  | cons y rest ih =>
    obtain ⟨k, z⟩ := y
    by_cases h : k < n
    · have : ¬ n ≤ k := by omega
      simp [bufForget, h, this, ih]
    · have : n ≤ k := by omega
      simp [bufForget, h, this, ih]

theorem bufGet_bufForget {α : Type} (b : List (Nat × α)) (n i : Nat) :
    bufGet (bufForget b n) i = if i < n then none else bufGet b i := by
  induction b with
  | nil => simp [bufForget, bufGet]
  | cons y rest ih =>
    obtain ⟨k, z⟩ := y
    by_cases h : k < n
    · by_cases hki : k = i
      · subst hki; simp [bufForget, h, ih]
      · simp [bufForget, bufGet, h, ih, hki]
    · by_cases hki : k = i
      · subst hki; simp [bufForget, h, bufGet]
      · simp [bufForget, bufGet, h, ih, hki]

theorem bufSorted_bufForget {α : Type} (b : List (Nat × α)) (n : Nat) (hb : bufSorted b) : bufSorted (bufForget b n) := by
  rw [bufForget_eq_filter]; exact hb.filter _

theorem bufBelow_bufForget {α : Type} (b : List (Nat × α)) (n cap : Nat) (hb : bufBelow b cap) :
    bufBelow (bufForget b n) cap := by
  rw [bufForget_eq_filter]; exact fun x hx => hb x (List.mem_filter.1 hx).1

/-- Canonical form: two sorted buffers with the same entries are the same list. -/
theorem bufGet_none_of_below {α : Type} {b : List (Nat × α)} {i : Nat} (h : ∀ x ∈ b, i < x.1) : bufGet b i = none := by
  induction b with
  | nil => rfl
  | cons y rest ih =>
    obtain ⟨k, z⟩ := y
    have hk : k ≠ i := by have := h (k, z) (by simp); simp at this; omega
    simp [bufGet, hk, ih (fun x hx => h x (by simp [hx]))]

theorem buf_ext {α : Type} {b c : List (Nat × α)} (hb : bufSorted b) (hc : bufSorted c)
    (h : ∀ i, bufGet b i = bufGet c i) : b = c := by
  induction b generalizing c with
  | nil =>
    cases c with
    | nil => rfl
    | cons y rest => have := h y.1; simp [bufGet] at this
  | cons x xs ih =>
    cases c with
    | nil => have := h x.1; simp [bufGet] at this
    | cons y ys =>
      obtain ⟨k, u⟩ := x
      obtain ⟨l, v⟩ := y
      have ⟨hk, hxs⟩ := List.pairwise_cons.1 hb
      have ⟨hl, hys⟩ := List.pairwise_cons.1 hc
      have hkl : k = l := by
        rcases Nat.lt_trichotomy k l with hlt | he | hgt
        · have h1 := h k
          have : l ≠ k := by omega
          simp [bufGet, this, bufGet_none_of_below (fun x hx => lt_trans hlt (hl x hx))] at h1
        · exact he
        · have h1 := h l
          have : k ≠ l := by omega
          simp [bufGet, this, bufGet_none_of_below (fun x hx => lt_trans hgt (hk x hx))] at h1
      subst hkl
      have huv : u = v := by simpa [bufGet] using h k
      subst huv
      congr 1
      refine ih hxs hys fun i => ?_
      by_cases hi : k = i
      · subst hi
        rw [bufGet_none_of_below hk, bufGet_none_of_below hl]
      · simpa [bufGet, hi] using h i

theorem bufGet_isSome_of_mem {α : Type} {b : List (Nat × α)} {i : Nat} {v : α} (h : bufGet b i = some v) : (i, v) ∈ b := by
  induction b with
  | nil => simp [bufGet] at h
  | cons y rest ih =>
    obtain ⟨k, z⟩ := y
    by_cases hk : k = i
    · subst hk; simp [bufGet] at h; simp [h]
    · simp [bufGet, hk] at h; simp [ih h]

end Sys2Proof.Machine
end

