-- ==== Sys2Proof/Laws/State.lean ====
section
/-! SUPPORT. One lemma per field per named update of the state, true by rfl: what each update writes and what it leaves. -/

namespace Sys2Proof.Machine

variable (s : State)

/-! ### `State.accept` -/

@[simp] theorem accept_cfg (w : Word) : (s.accept w).cfg = s.cfg := rfl
@[simp] theorem accept_irqEn (w : Word) : (s.accept w).irqEn = s.irqEn := rfl
@[simp] theorem accept_status (w : Word) : (s.accept w).status = { s.status with lastOp := w.extractLsb' 0 8, errcode := .ok, done := false, ovr := false, busy := true } := rfl
@[simp] theorem accept_donePend (w : Word) : (s.accept w).donePend = s.donePend := rfl
@[simp] theorem accept_cmd (w : Word) : (s.accept w).cmd = w := rfl
@[simp] theorem accept_opa (w : Word) : (s.accept w).opa = s.opa := rfl
@[simp] theorem accept_opb (w : Word) : (s.accept w).opb = s.opb := rfl
@[simp] theorem accept_opc (w : Word) : (s.accept w).opc = s.opc := rfl
@[simp] theorem accept_res (w : Word) : (s.accept w).res = s.res := rfl
@[simp] theorem accept_msgLen (w : Word) : (s.accept w).msgLen = s.msgLen := rfl
@[simp] theorem accept_draws (w : Word) : (s.accept w).draws = s.draws := rfl
@[simp] theorem accept_keys (w : Word) : (s.accept w).keys = s.keys := rfl
@[simp] theorem accept_mem (w : Word) : (s.accept w).mem = s.mem := rfl
@[simp] theorem accept_latch (w : Word) : (s.accept w).latch = ⟨s.opa, s.opb, s.opc, s.msgLen, w.extractLsb' 0 8, w⟩ := rfl
@[simp] theorem accept_seq (w : Word) : (s.accept w).seq = .run := rfl
@[simp] theorem accept_rngAnswers (w : Word) : (s.accept w).rngAnswers = [] := rfl
@[simp] theorem accept_busResp (w : Word) : (s.accept w).busResp = s.busResp := rfl
@[simp] theorem accept_freeCtr (w : Word) : (s.accept w).freeCtr = s.freeCtr := rfl
@[simp] theorem accept_inputs (w : Word) : (s.accept w).inputs = s.inputs := rfl

/-! ### `State.overrun` -/

@[simp] theorem overrun_cfg : (s.overrun).cfg = s.cfg := rfl
@[simp] theorem overrun_irqEn : (s.overrun).irqEn = s.irqEn := rfl
@[simp] theorem overrun_status : (s.overrun).status = { s.status with ovr := true } := rfl
@[simp] theorem overrun_donePend : (s.overrun).donePend = s.donePend := rfl
@[simp] theorem overrun_cmd : (s.overrun).cmd = s.cmd := rfl
@[simp] theorem overrun_opa : (s.overrun).opa = s.opa := rfl
@[simp] theorem overrun_opb : (s.overrun).opb = s.opb := rfl
@[simp] theorem overrun_opc : (s.overrun).opc = s.opc := rfl
@[simp] theorem overrun_res : (s.overrun).res = s.res := rfl
@[simp] theorem overrun_msgLen : (s.overrun).msgLen = s.msgLen := rfl
@[simp] theorem overrun_draws : (s.overrun).draws = s.draws := rfl
@[simp] theorem overrun_keys : (s.overrun).keys = s.keys := rfl
@[simp] theorem overrun_mem : (s.overrun).mem = s.mem := rfl
@[simp] theorem overrun_latch : (s.overrun).latch = s.latch := rfl
@[simp] theorem overrun_seq : (s.overrun).seq = s.seq := rfl
@[simp] theorem overrun_rngAnswers : (s.overrun).rngAnswers = s.rngAnswers := rfl
@[simp] theorem overrun_busResp : (s.overrun).busResp = s.busResp := rfl
@[simp] theorem overrun_freeCtr : (s.overrun).freeCtr = s.freeCtr := rfl
@[simp] theorem overrun_inputs : (s.overrun).inputs = s.inputs := rfl

/-! ### `State.complete` -/

@[simp] theorem complete_cfg (c : ErrCode) : (s.complete c).cfg = s.cfg := rfl
@[simp] theorem complete_irqEn (c : ErrCode) : (s.complete c).irqEn = s.irqEn := rfl
@[simp] theorem complete_status (c : ErrCode) : (s.complete c).status = { s.status with errcode := c, busy := false, done := true } := rfl
@[simp] theorem complete_donePend (c : ErrCode) : (s.complete c).donePend = true := rfl
@[simp] theorem complete_cmd (c : ErrCode) : (s.complete c).cmd = s.cmd := rfl
@[simp] theorem complete_opa (c : ErrCode) : (s.complete c).opa = s.opa := rfl
@[simp] theorem complete_opb (c : ErrCode) : (s.complete c).opb = s.opb := rfl
@[simp] theorem complete_opc (c : ErrCode) : (s.complete c).opc = s.opc := rfl
@[simp] theorem complete_res (c : ErrCode) : (s.complete c).res = s.res := rfl
@[simp] theorem complete_msgLen (c : ErrCode) : (s.complete c).msgLen = s.msgLen := rfl
@[simp] theorem complete_draws (c : ErrCode) : (s.complete c).draws = s.draws := rfl
@[simp] theorem complete_keys (c : ErrCode) : (s.complete c).keys = s.keys := rfl
@[simp] theorem complete_mem (c : ErrCode) : (s.complete c).mem = s.mem := rfl
@[simp] theorem complete_latch (c : ErrCode) : (s.complete c).latch = s.latch := rfl
@[simp] theorem complete_seq (c : ErrCode) : (s.complete c).seq = .idle := rfl
@[simp] theorem complete_rngAnswers (c : ErrCode) : (s.complete c).rngAnswers = [] := rfl
@[simp] theorem complete_busResp (c : ErrCode) : (s.complete c).busResp = s.busResp := rfl
@[simp] theorem complete_freeCtr (c : ErrCode) : (s.complete c).freeCtr = s.freeCtr := rfl
@[simp] theorem complete_inputs (c : ErrCode) : (s.complete c).inputs = s.inputs := rfl

/-! ### `State.raiseErr` -/

@[simp] theorem raiseErr_cfg (c : ErrCode) : (s.raiseErr c).cfg = s.cfg := rfl
@[simp] theorem raiseErr_irqEn (c : ErrCode) : (s.raiseErr c).irqEn = s.irqEn := rfl
@[simp] theorem raiseErr_status (c : ErrCode) : (s.raiseErr c).status = { s.status with errcode := c, busy := false, done := true } := rfl
@[simp] theorem raiseErr_donePend (c : ErrCode) : (s.raiseErr c).donePend = true := rfl
@[simp] theorem raiseErr_cmd (c : ErrCode) : (s.raiseErr c).cmd = s.cmd := rfl
@[simp] theorem raiseErr_opa (c : ErrCode) : (s.raiseErr c).opa = s.opa := rfl
@[simp] theorem raiseErr_opb (c : ErrCode) : (s.raiseErr c).opb = s.opb := rfl
@[simp] theorem raiseErr_opc (c : ErrCode) : (s.raiseErr c).opc = s.opc := rfl
@[simp] theorem raiseErr_res (c : ErrCode) : (s.raiseErr c).res = s.res := rfl
@[simp] theorem raiseErr_msgLen (c : ErrCode) : (s.raiseErr c).msgLen = s.msgLen := rfl
@[simp] theorem raiseErr_draws (c : ErrCode) : (s.raiseErr c).draws = s.draws := rfl
@[simp] theorem raiseErr_keys (c : ErrCode) : (s.raiseErr c).keys = s.keys := rfl
@[simp] theorem raiseErr_mem (c : ErrCode) : (s.raiseErr c).mem = s.mem := rfl
@[simp] theorem raiseErr_latch (c : ErrCode) : (s.raiseErr c).latch = s.latch := rfl
@[simp] theorem raiseErr_seq (c : ErrCode) : (s.raiseErr c).seq = .idle := rfl
@[simp] theorem raiseErr_rngAnswers (c : ErrCode) : (s.raiseErr c).rngAnswers = [] := rfl
@[simp] theorem raiseErr_busResp (c : ErrCode) : (s.raiseErr c).busResp = s.busResp := rfl
@[simp] theorem raiseErr_freeCtr (c : ErrCode) : (s.raiseErr c).freeCtr = s.freeCtr := rfl
@[simp] theorem raiseErr_inputs (c : ErrCode) : (s.raiseErr c).inputs = s.inputs := rfl

/-! ### `State.acknowledge` -/

@[simp] theorem acknowledge_cfg : (s.acknowledge).cfg = s.cfg := rfl
@[simp] theorem acknowledge_irqEn : (s.acknowledge).irqEn = s.irqEn := rfl
@[simp] theorem acknowledge_status : (s.acknowledge).status = s.status := rfl
@[simp] theorem acknowledge_donePend : (s.acknowledge).donePend = false := rfl
@[simp] theorem acknowledge_cmd : (s.acknowledge).cmd = s.cmd := rfl
@[simp] theorem acknowledge_opa : (s.acknowledge).opa = s.opa := rfl
@[simp] theorem acknowledge_opb : (s.acknowledge).opb = s.opb := rfl
@[simp] theorem acknowledge_opc : (s.acknowledge).opc = s.opc := rfl
@[simp] theorem acknowledge_res : (s.acknowledge).res = s.res := rfl
@[simp] theorem acknowledge_msgLen : (s.acknowledge).msgLen = s.msgLen := rfl
@[simp] theorem acknowledge_draws : (s.acknowledge).draws = s.draws := rfl
@[simp] theorem acknowledge_keys : (s.acknowledge).keys = s.keys := rfl
@[simp] theorem acknowledge_mem : (s.acknowledge).mem = s.mem := rfl
@[simp] theorem acknowledge_latch : (s.acknowledge).latch = s.latch := rfl
@[simp] theorem acknowledge_seq : (s.acknowledge).seq = s.seq := rfl
@[simp] theorem acknowledge_rngAnswers : (s.acknowledge).rngAnswers = s.rngAnswers := rfl
@[simp] theorem acknowledge_busResp : (s.acknowledge).busResp = s.busResp := rfl
@[simp] theorem acknowledge_freeCtr : (s.acknowledge).freeCtr = s.freeCtr := rfl
@[simp] theorem acknowledge_inputs : (s.acknowledge).inputs = s.inputs := rfl

/-! ### `State.completeRes` -/

@[simp] theorem completeRes_cfg (v : Word) : (s.completeRes v).cfg = s.cfg := rfl
@[simp] theorem completeRes_irqEn (v : Word) : (s.completeRes v).irqEn = s.irqEn := rfl
@[simp] theorem completeRes_status (v : Word) : (s.completeRes v).status = { s.status with errcode := .ok, busy := false, done := true } := rfl
@[simp] theorem completeRes_donePend (v : Word) : (s.completeRes v).donePend = true := rfl
@[simp] theorem completeRes_cmd (v : Word) : (s.completeRes v).cmd = s.cmd := rfl
@[simp] theorem completeRes_opa (v : Word) : (s.completeRes v).opa = s.opa := rfl
@[simp] theorem completeRes_opb (v : Word) : (s.completeRes v).opb = s.opb := rfl
@[simp] theorem completeRes_opc (v : Word) : (s.completeRes v).opc = s.opc := rfl
@[simp] theorem completeRes_res (v : Word) : (s.completeRes v).res = v := rfl
@[simp] theorem completeRes_msgLen (v : Word) : (s.completeRes v).msgLen = s.msgLen := rfl
@[simp] theorem completeRes_draws (v : Word) : (s.completeRes v).draws = s.draws := rfl
@[simp] theorem completeRes_keys (v : Word) : (s.completeRes v).keys = s.keys := rfl
@[simp] theorem completeRes_mem (v : Word) : (s.completeRes v).mem = s.mem := rfl
@[simp] theorem completeRes_latch (v : Word) : (s.completeRes v).latch = s.latch := rfl
@[simp] theorem completeRes_seq (v : Word) : (s.completeRes v).seq = .idle := rfl
@[simp] theorem completeRes_rngAnswers (v : Word) : (s.completeRes v).rngAnswers = [] := rfl
@[simp] theorem completeRes_busResp (v : Word) : (s.completeRes v).busResp = s.busResp := rfl
@[simp] theorem completeRes_freeCtr (v : Word) : (s.completeRes v).freeCtr = s.freeCtr := rfl
@[simp] theorem completeRes_inputs (v : Word) : (s.completeRes v).inputs = s.inputs := rfl

/-! ### `State.keySucceed` -/

@[simp] theorem keySucceed_cfg (n : Nat) (k : KeyRegs) : (s.keySucceed n k).cfg = s.cfg := rfl
@[simp] theorem keySucceed_irqEn (n : Nat) (k : KeyRegs) : (s.keySucceed n k).irqEn = s.irqEn := rfl
@[simp] theorem keySucceed_status (n : Nat) (k : KeyRegs) : (s.keySucceed n k).status = { s.status with errcode := .ok, busy := false, done := true, keyValid := true } := rfl
@[simp] theorem keySucceed_donePend (n : Nat) (k : KeyRegs) : (s.keySucceed n k).donePend = true := rfl
@[simp] theorem keySucceed_cmd (n : Nat) (k : KeyRegs) : (s.keySucceed n k).cmd = s.cmd := rfl
@[simp] theorem keySucceed_opa (n : Nat) (k : KeyRegs) : (s.keySucceed n k).opa = s.opa := rfl
@[simp] theorem keySucceed_opb (n : Nat) (k : KeyRegs) : (s.keySucceed n k).opb = s.opb := rfl
@[simp] theorem keySucceed_opc (n : Nat) (k : KeyRegs) : (s.keySucceed n k).opc = s.opc := rfl
@[simp] theorem keySucceed_res (n : Nat) (k : KeyRegs) : (s.keySucceed n k).res = s.res := rfl
@[simp] theorem keySucceed_msgLen (n : Nat) (k : KeyRegs) : (s.keySucceed n k).msgLen = s.msgLen := rfl
@[simp] theorem keySucceed_draws (n : Nat) (k : KeyRegs) : (s.keySucceed n k).draws = wordOf n := rfl
@[simp] theorem keySucceed_keys (n : Nat) (k : KeyRegs) : (s.keySucceed n k).keys = k := rfl
@[simp] theorem keySucceed_mem (n : Nat) (k : KeyRegs) : (s.keySucceed n k).mem = s.mem := rfl
@[simp] theorem keySucceed_latch (n : Nat) (k : KeyRegs) : (s.keySucceed n k).latch = s.latch := rfl
@[simp] theorem keySucceed_seq (n : Nat) (k : KeyRegs) : (s.keySucceed n k).seq = .idle := rfl
@[simp] theorem keySucceed_rngAnswers (n : Nat) (k : KeyRegs) : (s.keySucceed n k).rngAnswers = [] := rfl
@[simp] theorem keySucceed_busResp (n : Nat) (k : KeyRegs) : (s.keySucceed n k).busResp = s.busResp := rfl
@[simp] theorem keySucceed_freeCtr (n : Nat) (k : KeyRegs) : (s.keySucceed n k).freeCtr = s.freeCtr := rfl
@[simp] theorem keySucceed_inputs (n : Nat) (k : KeyRegs) : (s.keySucceed n k).inputs = s.inputs := rfl

/-! ### `State.keyFail` -/

@[simp] theorem keyFail_cfg (c : ErrCode) (n : Nat) (k : KeyRegs) : (s.keyFail c n k).cfg = s.cfg := rfl
@[simp] theorem keyFail_irqEn (c : ErrCode) (n : Nat) (k : KeyRegs) : (s.keyFail c n k).irqEn = s.irqEn := rfl
@[simp] theorem keyFail_status (c : ErrCode) (n : Nat) (k : KeyRegs) : (s.keyFail c n k).status = { s.status with errcode := c, busy := false, done := true, keyValid := false } := rfl
@[simp] theorem keyFail_donePend (c : ErrCode) (n : Nat) (k : KeyRegs) : (s.keyFail c n k).donePend = true := rfl
@[simp] theorem keyFail_cmd (c : ErrCode) (n : Nat) (k : KeyRegs) : (s.keyFail c n k).cmd = s.cmd := rfl
@[simp] theorem keyFail_opa (c : ErrCode) (n : Nat) (k : KeyRegs) : (s.keyFail c n k).opa = s.opa := rfl
@[simp] theorem keyFail_opb (c : ErrCode) (n : Nat) (k : KeyRegs) : (s.keyFail c n k).opb = s.opb := rfl
@[simp] theorem keyFail_opc (c : ErrCode) (n : Nat) (k : KeyRegs) : (s.keyFail c n k).opc = s.opc := rfl
@[simp] theorem keyFail_res (c : ErrCode) (n : Nat) (k : KeyRegs) : (s.keyFail c n k).res = s.res := rfl
@[simp] theorem keyFail_msgLen (c : ErrCode) (n : Nat) (k : KeyRegs) : (s.keyFail c n k).msgLen = s.msgLen := rfl
@[simp] theorem keyFail_draws (c : ErrCode) (n : Nat) (k : KeyRegs) : (s.keyFail c n k).draws = wordOf n := rfl
@[simp] theorem keyFail_keys (c : ErrCode) (n : Nat) (k : KeyRegs) : (s.keyFail c n k).keys = { k with e := 0#64, d := 0#64 } := rfl
@[simp] theorem keyFail_mem (c : ErrCode) (n : Nat) (k : KeyRegs) : (s.keyFail c n k).mem = s.mem := rfl
@[simp] theorem keyFail_latch (c : ErrCode) (n : Nat) (k : KeyRegs) : (s.keyFail c n k).latch = s.latch := rfl
@[simp] theorem keyFail_seq (c : ErrCode) (n : Nat) (k : KeyRegs) : (s.keyFail c n k).seq = .idle := rfl
@[simp] theorem keyFail_rngAnswers (c : ErrCode) (n : Nat) (k : KeyRegs) : (s.keyFail c n k).rngAnswers = [] := rfl
@[simp] theorem keyFail_busResp (c : ErrCode) (n : Nat) (k : KeyRegs) : (s.keyFail c n k).busResp = s.busResp := rfl
@[simp] theorem keyFail_freeCtr (c : ErrCode) (n : Nat) (k : KeyRegs) : (s.keyFail c n k).freeCtr = s.freeCtr := rfl
@[simp] theorem keyFail_inputs (c : ErrCode) (n : Nat) (k : KeyRegs) : (s.keyFail c n k).inputs = s.inputs := rfl

/-! ### `State.respond` -/

@[simp] theorem respond_cfg (v : Word) : (s.respond v).cfg = s.cfg := rfl
@[simp] theorem respond_irqEn (v : Word) : (s.respond v).irqEn = s.irqEn := rfl
@[simp] theorem respond_status (v : Word) : (s.respond v).status = s.status := rfl
@[simp] theorem respond_donePend (v : Word) : (s.respond v).donePend = s.donePend := rfl
@[simp] theorem respond_cmd (v : Word) : (s.respond v).cmd = s.cmd := rfl
@[simp] theorem respond_opa (v : Word) : (s.respond v).opa = s.opa := rfl
@[simp] theorem respond_opb (v : Word) : (s.respond v).opb = s.opb := rfl
@[simp] theorem respond_opc (v : Word) : (s.respond v).opc = s.opc := rfl
@[simp] theorem respond_res (v : Word) : (s.respond v).res = s.res := rfl
@[simp] theorem respond_msgLen (v : Word) : (s.respond v).msgLen = s.msgLen := rfl
@[simp] theorem respond_draws (v : Word) : (s.respond v).draws = s.draws := rfl
@[simp] theorem respond_keys (v : Word) : (s.respond v).keys = s.keys := rfl
@[simp] theorem respond_mem (v : Word) : (s.respond v).mem = s.mem := rfl
@[simp] theorem respond_latch (v : Word) : (s.respond v).latch = s.latch := rfl
@[simp] theorem respond_seq (v : Word) : (s.respond v).seq = s.seq := rfl
@[simp] theorem respond_rngAnswers (v : Word) : (s.respond v).rngAnswers = s.rngAnswers := rfl
@[simp] theorem respond_busResp (v : Word) : (s.respond v).busResp = some v := rfl
@[simp] theorem respond_freeCtr (v : Word) : (s.respond v).freeCtr = s.freeCtr := rfl
@[simp] theorem respond_inputs (v : Word) : (s.respond v).inputs = s.inputs := rfl

/-! ### `State.respondFree` -/

@[simp] theorem respondFree_cfg : (s.respondFree).cfg = s.cfg := rfl
@[simp] theorem respondFree_irqEn : (s.respondFree).irqEn = s.irqEn := rfl
@[simp] theorem respondFree_status : (s.respondFree).status = s.status := rfl
@[simp] theorem respondFree_donePend : (s.respondFree).donePend = s.donePend := rfl
@[simp] theorem respondFree_cmd : (s.respondFree).cmd = s.cmd := rfl
@[simp] theorem respondFree_opa : (s.respondFree).opa = s.opa := rfl
@[simp] theorem respondFree_opb : (s.respondFree).opb = s.opb := rfl
@[simp] theorem respondFree_opc : (s.respondFree).opc = s.opc := rfl
@[simp] theorem respondFree_res : (s.respondFree).res = s.res := rfl
@[simp] theorem respondFree_msgLen : (s.respondFree).msgLen = s.msgLen := rfl
@[simp] theorem respondFree_draws : (s.respondFree).draws = s.draws := rfl
@[simp] theorem respondFree_keys : (s.respondFree).keys = s.keys := rfl
@[simp] theorem respondFree_mem : (s.respondFree).mem = s.mem := rfl
@[simp] theorem respondFree_latch : (s.respondFree).latch = s.latch := rfl
@[simp] theorem respondFree_seq : (s.respondFree).seq = s.seq := rfl
@[simp] theorem respondFree_rngAnswers : (s.respondFree).rngAnswers = s.rngAnswers := rfl
@[simp] theorem respondFree_busResp : (s.respondFree).busResp = some (Config.freeWord s.freeCtr) := rfl
@[simp] theorem respondFree_freeCtr : (s.respondFree).freeCtr = s.freeCtr + 1 := rfl
@[simp] theorem respondFree_inputs : (s.respondFree).inputs = s.inputs := rfl

/-! ### `State.storeMsg` -/

@[simp] theorem storeMsg_cfg (i : Nat) (b : Byte) : (s.storeMsg i b).cfg = s.cfg := rfl
@[simp] theorem storeMsg_irqEn (i : Nat) (b : Byte) : (s.storeMsg i b).irqEn = s.irqEn := rfl
@[simp] theorem storeMsg_status (i : Nat) (b : Byte) : (s.storeMsg i b).status = s.status := rfl
@[simp] theorem storeMsg_donePend (i : Nat) (b : Byte) : (s.storeMsg i b).donePend = s.donePend := rfl
@[simp] theorem storeMsg_cmd (i : Nat) (b : Byte) : (s.storeMsg i b).cmd = s.cmd := rfl
@[simp] theorem storeMsg_opa (i : Nat) (b : Byte) : (s.storeMsg i b).opa = s.opa := rfl
@[simp] theorem storeMsg_opb (i : Nat) (b : Byte) : (s.storeMsg i b).opb = s.opb := rfl
@[simp] theorem storeMsg_opc (i : Nat) (b : Byte) : (s.storeMsg i b).opc = s.opc := rfl
@[simp] theorem storeMsg_res (i : Nat) (b : Byte) : (s.storeMsg i b).res = s.res := rfl
@[simp] theorem storeMsg_msgLen (i : Nat) (b : Byte) : (s.storeMsg i b).msgLen = s.msgLen := rfl
@[simp] theorem storeMsg_draws (i : Nat) (b : Byte) : (s.storeMsg i b).draws = s.draws := rfl
@[simp] theorem storeMsg_keys (i : Nat) (b : Byte) : (s.storeMsg i b).keys = s.keys := rfl
@[simp] theorem storeMsg_mem (i : Nat) (b : Byte) : (s.storeMsg i b).mem = { s.mem with msg := bufSet s.mem.msg i b } := rfl
@[simp] theorem storeMsg_latch (i : Nat) (b : Byte) : (s.storeMsg i b).latch = s.latch := rfl
@[simp] theorem storeMsg_seq (i : Nat) (b : Byte) : (s.storeMsg i b).seq = s.seq := rfl
@[simp] theorem storeMsg_rngAnswers (i : Nat) (b : Byte) : (s.storeMsg i b).rngAnswers = s.rngAnswers := rfl
@[simp] theorem storeMsg_busResp (i : Nat) (b : Byte) : (s.storeMsg i b).busResp = s.busResp := rfl
@[simp] theorem storeMsg_freeCtr (i : Nat) (b : Byte) : (s.storeMsg i b).freeCtr = s.freeCtr := rfl
@[simp] theorem storeMsg_inputs (i : Nat) (b : Byte) : (s.storeMsg i b).inputs = s.inputs := rfl

/-! ### `State.storeCt` -/

@[simp] theorem storeCt_cfg (i : Nat) (v : Word) : (s.storeCt i v).cfg = s.cfg := rfl
@[simp] theorem storeCt_irqEn (i : Nat) (v : Word) : (s.storeCt i v).irqEn = s.irqEn := rfl
@[simp] theorem storeCt_status (i : Nat) (v : Word) : (s.storeCt i v).status = s.status := rfl
@[simp] theorem storeCt_donePend (i : Nat) (v : Word) : (s.storeCt i v).donePend = s.donePend := rfl
@[simp] theorem storeCt_cmd (i : Nat) (v : Word) : (s.storeCt i v).cmd = s.cmd := rfl
@[simp] theorem storeCt_opa (i : Nat) (v : Word) : (s.storeCt i v).opa = s.opa := rfl
@[simp] theorem storeCt_opb (i : Nat) (v : Word) : (s.storeCt i v).opb = s.opb := rfl
@[simp] theorem storeCt_opc (i : Nat) (v : Word) : (s.storeCt i v).opc = s.opc := rfl
@[simp] theorem storeCt_res (i : Nat) (v : Word) : (s.storeCt i v).res = s.res := rfl
@[simp] theorem storeCt_msgLen (i : Nat) (v : Word) : (s.storeCt i v).msgLen = s.msgLen := rfl
@[simp] theorem storeCt_draws (i : Nat) (v : Word) : (s.storeCt i v).draws = s.draws := rfl
@[simp] theorem storeCt_keys (i : Nat) (v : Word) : (s.storeCt i v).keys = s.keys := rfl
@[simp] theorem storeCt_mem (i : Nat) (v : Word) : (s.storeCt i v).mem = { s.mem with ct := bufSet s.mem.ct i v } := rfl
@[simp] theorem storeCt_latch (i : Nat) (v : Word) : (s.storeCt i v).latch = s.latch := rfl
@[simp] theorem storeCt_seq (i : Nat) (v : Word) : (s.storeCt i v).seq = s.seq := rfl
@[simp] theorem storeCt_rngAnswers (i : Nat) (v : Word) : (s.storeCt i v).rngAnswers = s.rngAnswers := rfl
@[simp] theorem storeCt_busResp (i : Nat) (v : Word) : (s.storeCt i v).busResp = s.busResp := rfl
@[simp] theorem storeCt_freeCtr (i : Nat) (v : Word) : (s.storeCt i v).freeCtr = s.freeCtr := rfl
@[simp] theorem storeCt_inputs (i : Nat) (v : Word) : (s.storeCt i v).inputs = s.inputs := rfl

/-! ### `State.resetRegisters` -/

@[simp] theorem resetRegisters_cfg (m : Memory) : (s.resetRegisters m).cfg = s.cfg := rfl
@[simp] theorem resetRegisters_irqEn (m : Memory) : (s.resetRegisters m).irqEn = false := rfl
@[simp] theorem resetRegisters_status (m : Memory) : (s.resetRegisters m).status = Status.reset := rfl
@[simp] theorem resetRegisters_donePend (m : Memory) : (s.resetRegisters m).donePend = false := rfl
@[simp] theorem resetRegisters_cmd (m : Memory) : (s.resetRegisters m).cmd = 0#64 := rfl
@[simp] theorem resetRegisters_opa (m : Memory) : (s.resetRegisters m).opa = 0#64 := rfl
@[simp] theorem resetRegisters_opb (m : Memory) : (s.resetRegisters m).opb = 0#64 := rfl
@[simp] theorem resetRegisters_opc (m : Memory) : (s.resetRegisters m).opc = 0#64 := rfl
@[simp] theorem resetRegisters_res (m : Memory) : (s.resetRegisters m).res = 0#64 := rfl
@[simp] theorem resetRegisters_msgLen (m : Memory) : (s.resetRegisters m).msgLen = 0#64 := rfl
@[simp] theorem resetRegisters_draws (m : Memory) : (s.resetRegisters m).draws = 0#64 := rfl
@[simp] theorem resetRegisters_keys (m : Memory) : (s.resetRegisters m).keys = KeyRegs.zero := rfl
@[simp] theorem resetRegisters_mem (m : Memory) : (s.resetRegisters m).mem = m := rfl
@[simp] theorem resetRegisters_latch (m : Memory) : (s.resetRegisters m).latch = freeLatches s.freeCtr := rfl
@[simp] theorem resetRegisters_seq (m : Memory) : (s.resetRegisters m).seq = .idle := rfl
@[simp] theorem resetRegisters_rngAnswers (m : Memory) : (s.resetRegisters m).rngAnswers = [] := rfl
@[simp] theorem resetRegisters_busResp (m : Memory) : (s.resetRegisters m).busResp = none := rfl
@[simp] theorem resetRegisters_freeCtr (m : Memory) : (s.resetRegisters m).freeCtr = s.freeCtr + 6 := rfl
@[simp] theorem resetRegisters_inputs (m : Memory) : (s.resetRegisters m).inputs = s.inputs := rfl

end Sys2Proof.Machine
end

