-- ==== Sys2Proof/Laws/Units.lean ====
section
/-! SUPPORT. What the cipher loops, the draw loops and the shared tail of key generation can answer (44_keygen.md, 45_cipher.md). -/

namespace Sys2Proof.Machine

theorem wordOf_toNat {n : Nat} (h : n < 2 ^ 64) : (wordOf n).toNat = n := by
  simp only [wordOf, BitVec.toNat_ofNat]; exact Nat.mod_eq_of_lt h

/-! ### The cipher loops -/

theorem encryptLoop_cases (msg : List Host.Cell) (e n k i : Nat) (ct : List (Nat × Word)) :
    (∃ ct', encryptLoop msg e n k i ct = .ok ct' ∧
      (∀ j, i ≤ j → j < i + k → (bufGet msg j).isSome) ∧
      (∀ j, bufGet ct' j = if i ≤ j ∧ j < i + k
        then (bufGet msg j).map (fun b => wordOf (modExpValue b.toNat e n)) else bufGet ct j) ∧
      (bufSorted ct → bufSorted ct') ∧ (∀ cap, i + k ≤ cap → bufBelow ct cap → bufBelow ct' cap)) ∨
    (∃ j, i ≤ j ∧ j < i + k ∧ bufGet msg j = none ∧ (∀ l, i ≤ l → l < j → (bufGet msg l).isSome) ∧
      encryptLoop msg e n k i ct = .error (.unwrittenRead .msg j)) := by
  induction k generalizing i ct with
  | zero =>
    refine Or.inl ⟨ct, rfl, fun j h1 h2 => by omega, fun j => ?_, id, fun _ _ h => h⟩
    rw [if_neg (by omega)]
  | succ k ih =>
    rw [encryptLoop]
    cases hg : bufGet msg i with
    | none => exact Or.inr ⟨i, le_rfl, by omega, hg, fun l h1 h2 => by omega, rfl⟩
    | some b =>
      simp only
      rcases ih (i + 1) (bufSet ct i (wordOf (modExpValue b.toNat e n))) with
        ⟨ct', h1, h2, h3, h4, h5⟩ | ⟨j, h1, h2, h3, h4, h5⟩
      · refine Or.inl ⟨ct', h1, fun j hj1 hj2 => ?_, fun j => ?_, fun h => h4 (bufSorted_bufSet _ _ _ h),
          fun cap hc h => h5 cap (by omega) (bufBelow_bufSet _ _ _ _ h (by omega))⟩
        · rcases Nat.eq_or_lt_of_le hj1 with rfl | hlt
          · simp [hg]
          · exact h2 j hlt (by omega)
        · rw [h3 j]
          by_cases hji : j = i
          · subst hji
            rw [if_neg (by omega), if_pos (by omega), bufGet_bufSet_same, hg]; rfl
          · rw [bufGet_bufSet_other _ _ _ _ hji]
            by_cases hc : i + 1 ≤ j ∧ j < i + 1 + k
            · rw [if_pos hc, if_pos (by omega)]
            · rw [if_neg hc, if_neg (by omega)]
      · refine Or.inr ⟨j, by omega, by omega, h3, fun l hl1 hl2 => ?_, h5⟩
        rcases Nat.eq_or_lt_of_le hl1 with rfl | hlt
        · simp [hg]
        · exact h4 l hlt hl2

theorem decryptLoop_cases (ct : List (Nat × Word)) (d n k i : Nat) (out : List (Nat × Word)) :
    (∃ out', decryptLoop ct d n k i out = .ok out' ∧
      (∀ j, i ≤ j → j < i + k → (bufGet ct j).isSome) ∧
      (∀ j, bufGet out' j = if i ≤ j ∧ j < i + k
        then (bufGet ct j).map (fun c => wordOf (modExpValue c.toNat d n)) else bufGet out j) ∧
      (bufSorted out → bufSorted out') ∧ (∀ cap, i + k ≤ cap → bufBelow out cap → bufBelow out' cap)) ∨
    (∃ j, i ≤ j ∧ j < i + k ∧ bufGet ct j = none ∧ (∀ l, i ≤ l → l < j → (bufGet ct l).isSome) ∧
      decryptLoop ct d n k i out = .error (.unwrittenRead .ct j)) := by
  induction k generalizing i out with
  | zero =>
    refine Or.inl ⟨out, rfl, fun j h1 h2 => by omega, fun j => ?_, id, fun _ _ h => h⟩
    rw [if_neg (by omega)]
  | succ k ih =>
    rw [decryptLoop]
    cases hg : bufGet ct i with
    | none => exact Or.inr ⟨i, le_rfl, by omega, hg, fun l h1 h2 => by omega, rfl⟩
    | some c =>
      simp only
      rcases ih (i + 1) (bufSet out i (wordOf (modExpValue c.toNat d n))) with
        ⟨out', h1, h2, h3, h4, h5⟩ | ⟨j, h1, h2, h3, h4, h5⟩
      · refine Or.inl ⟨out', h1, fun j hj1 hj2 => ?_, fun j => ?_, fun h => h4 (bufSorted_bufSet _ _ _ h),
          fun cap hc h => h5 cap (by omega) (bufBelow_bufSet _ _ _ _ h (by omega))⟩
        · rcases Nat.eq_or_lt_of_le hj1 with rfl | hlt
          · simp [hg]
          · exact h2 j hlt (by omega)
        · rw [h3 j]
          by_cases hji : j = i
          · subst hji
            rw [if_neg (by omega), if_pos (by omega), bufGet_bufSet_same, hg]; rfl
          · rw [bufGet_bufSet_other _ _ _ _ hji]
            by_cases hc : i + 1 ≤ j ∧ j < i + 1 + k
            · rw [if_pos hc, if_pos (by omega)]
            · rw [if_neg hc, if_neg (by omega)]
      · refine Or.inr ⟨j, by omega, by omega, h3, fun l hl1 hl2 => ?_, h5⟩
        rcases Nat.eq_or_lt_of_le hl1 with rfl | hlt
        · simp [hg]
        · exact h4 l hlt hl2

/-! ### The draw loops -/

/-- What the draw loops can answer. -/
def DrawResult.sound (maxDraws : Nat) : DrawResult → Prop
  | .waiting => True
  | .failed code n p =>
    (code = .drawsExhausted ∨ code = .rngRange) ∧ n ≤ maxDraws ∧ (p = 0 ∨ drawnPrime p)
  | .primes p q n => drawnPrime p ∧ drawnPrime q ∧ p ≠ q ∧ n ≤ maxDraws

theorem drawLoop_sound (maxDraws : Nat) (answers : List Word) (drawn p : Nat) (hd : drawn ≤ maxDraws)
    (hp : p = 0 ∨ drawnPrime p) : (drawLoop maxDraws answers drawn p).sound maxDraws := by
  induction answers generalizing drawn p with
  | nil =>
    rw [drawLoop]
    split_ifs with h
    · exact ⟨Or.inl rfl, hd, hp⟩
    · trivial
  | cons r rest ih =>
    rw [drawLoop]
    split_ifs with h1 h2 h3 h4 h5
    · exact ⟨Or.inl rfl, hd, hp⟩
    · exact ⟨Or.inr rfl, by omega, hp⟩
    · exact ih _ _ (by omega) hp
    · have hr : drawnPrime r.toNat := by
        simp only [Config.primeLo, Config.primeHi, not_or, not_lt] at h2
        exact ⟨(isPrime_iff_prime _).1 (by simpa using h3), h2.1, h2.2⟩
      exact ih _ _ (by omega) (Or.inr hr)
    · exact ih _ _ (by omega) hp
    · have hr : drawnPrime r.toNat := by
        simp only [Config.primeLo, Config.primeHi, not_or, not_lt] at h2
        exact ⟨(isPrime_iff_prime _).1 (by simpa using h3), h2.1, h2.2⟩
      exact ⟨hp.resolve_left h4, hr, fun e => h5 e.symm, by omega⟩

theorem drawLoop_waiting_room (maxDraws : Nat) (answers : List Word) (drawn p : Nat) (hd : drawn ≤ maxDraws)
    (h : drawLoop maxDraws answers drawn p = .waiting) : drawn + answers.length < maxDraws := by
  induction answers generalizing drawn p with
  | nil =>
    rw [drawLoop] at h
    split_ifs at h with h1
    simp; omega
  | cons r rest ih =>
    rw [drawLoop] at h
    split_ifs at h with h1 h2 h3 h4 h5
    all_goals
      have := ih _ _ (by omega) h
      simp
      omega

theorem drawLoop_rejected (maxDraws : Nat) (xs rest : List Word) (drawn p : Nat)
    (hx : ∀ r ∈ xs, rejectedDraw p r) (hd : drawn + xs.length ≤ maxDraws) :
    drawLoop maxDraws (xs ++ rest) drawn p = drawLoop maxDraws rest (drawn + xs.length) p := by
  induction xs generalizing drawn with
  | nil => simp
  | cons r xs ih =>
    obtain ⟨h1, h2, h3⟩ := hx r (by simp)
    have hlen : drawn + 1 + xs.length ≤ maxDraws := by simp at hd; omega
    have ih' := ih (drawn + 1) (fun r hr => hx r (by simp [hr])) hlen
    have hrng : ¬ (r.toNat < Config.primeLo ∨ Config.primeHi < r.toNat) := by
      simp only [Config.primeLo, Config.primeHi]; omega
    have e : drawn + (r :: xs).length = drawn + 1 + xs.length := by simp; omega
    rw [List.cons_append, drawLoop, if_neg (by omega), e, ← ih']
    simp only [if_neg hrng]
    by_cases hp : isPrime r.toNat = false
    · rw [if_pos hp]
    · have hpr : r.toNat.Prime := (isPrime_iff_prime _).1 (by simpa using hp)
      obtain ⟨hp0, hrp⟩ := h3.resolve_left (fun h => h hpr)
      rw [if_neg hp, if_neg hp0, if_pos hrp]

theorem drawLoop_first_prime (maxDraws : Nat) (r : Word) (rest : List Word) (drawn : Nat)
    (hr : drawnPrime r.toNat) (hd : drawn ≠ maxDraws) :
    drawLoop maxDraws (r :: rest) drawn 0 = drawLoop maxDraws rest (drawn + 1) r.toNat := by
  have hrng : ¬ (r.toNat < Config.primeLo ∨ Config.primeHi < r.toNat) := by
    have := hr.2; simp only [Config.primeLo, Config.primeHi]; omega
  have hp : ¬ isPrime r.toNat = false := by simp [(isPrime_iff_prime _).2 hr.1]
  rw [drawLoop, if_neg hd]
  simp only [if_neg hrng, if_neg hp, if_true]

theorem drawLoop_second_prime (maxDraws : Nat) (p : Nat) (r : Word) (rest : List Word) (drawn : Nat)
    (hr : drawnPrime r.toNat) (hp0 : p ≠ 0) (hne : r.toNat ≠ p) (hd : drawn ≠ maxDraws) :
    drawLoop maxDraws (r :: rest) drawn p = .primes p r.toNat (drawn + 1) := by
  have hrng : ¬ (r.toNat < Config.primeLo ∨ Config.primeHi < r.toNat) := by
    have := hr.2; simp only [Config.primeLo, Config.primeHi]; omega
  have hp : ¬ isPrime r.toNat = false := by simp [(isPrime_iff_prime _).2 hr.1]
  rw [drawLoop, if_neg hd]
  simp only [if_neg hrng, if_neg hp, if_neg hp0, if_neg hne]

/-! ### The shared tail -/

theorem totient_large {p q : Nat} (hp : p.Prime) (hq : q.Prime) (hn : 255 < p * q) : 15 ≤ (p - 1) * (q - 1) := by
  have h1 := hp.two_le
  have h2 := hq.two_le
  obtain ⟨a, rfl⟩ : ∃ a, p = a + 1 := ⟨p - 1, by omega⟩
  obtain ⟨b, rfl⟩ : ∃ b, q = b + 1 := ⟨q - 1, by omega⟩
  simp only [Nat.add_sub_cancel]
  by_contra h
  have ha : 1 ≤ a := by omega
  have hb : 1 ≤ b := by omega
  have : a ≤ a * b := Nat.le_mul_of_pos_right a hb
  have : b ≤ a * b := Nat.le_mul_of_pos_left b ha
  nlinarith

/-- What the key generation computes from two distinct primes whose product passes the modulus gate (R170). -/
def tailKey (p q : Nat) : KeyRegs :=
  ⟨wordOf p, wordOf q, wordOf (p * q), wordOf ((p - 1) * (q - 1)),
    wordOf (scanExponent ((p - 1) * (q - 1)) ((p - 1) * (q - 1)) 3),
    wordOf (modInvValue (scanExponent ((p - 1) * (q - 1)) ((p - 1) * (q - 1)) 3) ((p - 1) * (q - 1)))⟩

theorem scanExponent_found {phi : Nat} (h : 4 ≤ phi) :
    3 ≤ scanExponent phi phi 3 ∧ scanExponent phi phi 3 < phi ∧ Nat.gcd (scanExponent phi phi 3) phi = 1 ∧
      ∀ c, 3 ≤ c → c < scanExponent phi phi 3 → Nat.gcd c phi ≠ 1 := by
  obtain ⟨h1, h2, h3, h4⟩ := scanExponent_spec phi phi 3 (by omega)
  have hco : Nat.gcd (phi - 1) phi = 1 := by
    have : Nat.Coprime (phi - 1) (phi - 1 + 1) := by simp
    rwa [Nat.sub_add_cancel (by omega)] at this
  have hlt : scanExponent phi phi 3 < phi := by
    have := h4 (phi - 1) (by omega) (by omega) hco; omega
  exact ⟨h1, hlt, h2 hlt, h3⟩

theorem keyTail_small {p q : Nat} (drawn : Nat) (s : State) (h : p * q ≤ 255) :
    keyTail p q drawn s = s.keyFail .modulusTooSmall drawn (partialKey p q (p * q) ((p - 1) * (q - 1))) := by
  simp [keyTail, Config.modulusMinExcl, h]

theorem keyTail_success {p q : Nat} (drawn : Nat) (s : State) (hp : p.Prime) (hq : q.Prime) (h : 255 < p * q) :
    keyTail p q drawn s = s.keySucceed drawn (tailKey p q) := by
  have hphi := totient_large hp hq h
  have hs := (scanExponent_found (phi := (p - 1) * (q - 1)) (by omega)).2.1
  have h1 : ¬ p * q ≤ Config.modulusMinExcl := not_le.2 h
  have h2 : ¬ (p - 1) * (q - 1) ≤ scanExponent ((p - 1) * (q - 1)) ((p - 1) * (q - 1)) Config.eStart := not_le.2 hs
  simp only [keyTail, if_neg h1, if_neg h2]
  rfl

theorem tailKey_keyInv {p q : Nat} (hp : p.Prime) (hq : q.Prime) (hne : p ≠ q) (hpw : p < 2 ^ 32) (hqw : q < 2 ^ 32)
    (h : 255 < p * q) : KeyInv (tailKey p q) := by
  have hphi := totient_large hp hq h
  have hn : p * q < 2 ^ 64 := by
    have : p * q ≤ (2 ^ 32 - 1) * (2 ^ 32 - 1) := Nat.mul_le_mul (by omega) (by omega)
    omega
  have hpl : (p - 1) * (q - 1) ≤ p * q := Nat.mul_le_mul (by omega) (by omega)
  obtain ⟨h1, h2, h3, -⟩ := scanExponent_found (phi := (p - 1) * (q - 1)) (by omega)
  obtain ⟨h4, h5⟩ := modInvValue_spec _ _ (by omega) h3
  have ep : (wordOf p).toNat = p := wordOf_toNat (by omega)
  have eq : (wordOf q).toNat = q := wordOf_toNat (by omega)
  have en : (wordOf (p * q)).toNat = p * q := wordOf_toNat hn
  have ef : (wordOf ((p - 1) * (q - 1))).toNat = (p - 1) * (q - 1) := wordOf_toNat (by omega)
  have ee := wordOf_toNat (n := scanExponent ((p - 1) * (q - 1)) ((p - 1) * (q - 1)) 3) (by omega)
  have ed := wordOf_toNat (n := modInvValue (scanExponent ((p - 1) * (q - 1)) ((p - 1) * (q - 1)) 3) ((p - 1) * (q - 1)))
    (by omega)
  constructor <;> simp only [tailKey, ep, eq, en, ef, ee, ed]
  · exact hp
  · exact hq
  · exact hne
  · exact h
  · exact h3
  · exact ⟨by omega, h2⟩
  · exact h4
  · exact h5

end Sys2Proof.Machine
end

