-- ==== Sys2Proof/Laws/Exec.lean ====
section
/-! SUPPORT. Inversion lemmas: every way a command ends, and every next state one step of the machine can answer. -/

namespace Sys2Proof.Machine

/-- The next states a command's meaning can answer: one case per way a command ends. -/
inductive ExecNext (i : Instr) (s : State) : State → Prop
  | waits (hi : i = .keygenRand) (h : s.drawResult = .waiting) : ExecNext i s s
  | plain (hi : i = .nop) : ExecNext i s (s.complete .ok)
  | error (code : ErrCode) (hi : i = .modinv ∨ i = .modexp ∨ i = .encrypt ∨ i = .decrypt) (hc : code ≠ .ok) :
      ExecNext i s (s.raiseErr code)
  | result (v : Word) (hi : i = .primeTest ∨ i = .gcd ∨ i = .modinv ∨ i = .modexp) : ExecNext i s (s.completeRes v)
  | keyOk (drawn : Nat) (k : KeyRegs) (hi : i = .keygenRand ∨ i = .keygenForced) (hk : KeyInv k)
      (hd : drawn ≤ s.cfg.maxDraws) : ExecNext i s (s.keySucceed drawn k)
  | keyBad (code : ErrCode) (drawn : Nat) (k : KeyRegs) (hi : i = .keygenRand ∨ i = .keygenForced) (hc : code ≠ .ok)
      (hd : drawn ≤ s.cfg.maxDraws) : ExecNext i s (s.keyFail code drawn k)
  | encrypted (ct : List (Nat × Word)) (hi : i = .encrypt) (hk : s.status.keyValid = true)
      (hl : s.opndLen ≤ s.cfg.msgMax) (hrun : encryptLoop s.mem.msg s.opndKeyE s.opndKeyN s.opndLen 0 s.mem.ct = .ok ct) :
      ExecNext i s (State.complete { s with mem := { s.mem with ct := ct } } .ok)
  | decrypted (out : List (Nat × Word)) (hi : i = .decrypt) (hk : s.status.keyValid = true)
      (hl : s.opndLen ≤ s.cfg.msgMax) (hrun : decryptLoop s.mem.ct s.opndKeyD s.opndKeyN s.opndLen 0 s.mem.dec = .ok out) :
      ExecNext i s (State.complete { s with mem := { s.mem with dec := out } } .ok)

theorem drawnPrime_mul_gt {p q : Nat} (hp : drawnPrime p) (hq : drawnPrime q) : 255 < p * q := by
  have : 100 * 100 ≤ p * q := Nat.mul_le_mul hp.2.1 hq.2.1
  omega

theorem maxDraws_pos (p : Params) : 2 ≤ p.maxDraws := Nat.le_add_left 2 _

theorem execKeygenRand_next {s t : State} (h : execKeygenRand s = .next t) : ExecNext .keygenRand s t := by
  have hsound := drawLoop_sound s.cfg.maxDraws s.rngAnswers 0 0 (Nat.zero_le _) (Or.inl rfl)
  change s.drawResult.sound s.cfg.maxDraws at hsound
  unfold execKeygenRand at h
  cases hd : s.drawResult with
  | waiting =>
    rw [hd] at h
    cases h
    exact .waits rfl hd
  | failed code n p =>
    rw [hd] at h hsound
    cases h
    refine .keyBad _ _ _ (Or.inl rfl) ?_ hsound.2.1
    rcases hsound.1 with h | h <;> simp [h]
  | primes p q n =>
    rw [hd] at h hsound
    obtain ⟨hp, hq, hne, hn⟩ := hsound
    simp only [keyTail_success n s hp.1 hq.1 (drawnPrime_mul_gt hp hq)] at h
    cases h
    exact .keyOk _ _ (Or.inl rfl) (tailKey_keyInv hp.1 hq.1 hne (by have := hp.2; omega) (by have := hq.2; omega)
      (drawnPrime_mul_gt hp hq)) hn

theorem badForcedPrimes_eq_false {p q : Nat} (h : badForcedPrimes p q = false) :
    p.Prime ∧ q.Prime ∧ p ≠ q ∧ p < 2 ^ 32 ∧ q < 2 ^ 32 := by
  simp only [badForcedPrimes, Config.forcedPrimeBits, Bool.or_eq_false_iff, decide_eq_false_iff_not, not_le,
    Bool.not_eq_false', beq_eq_false_iff_ne, isPrime_iff_prime] at h
  exact ⟨h.1.1.2, h.1.2, h.2, h.1.1.1.1, h.1.1.1.2⟩

theorem execKeygenForced_next {s t : State} (h : execKeygenForced s = .next t) : ExecNext .keygenForced s t := by
  unfold execKeygenForced at h
  split_ifs at h with hb
  · cases h
    exact .keyBad _ _ _ (Or.inr rfl) (by simp) (Nat.zero_le _)
  · obtain ⟨hp, hq, hne, hpw, hqw⟩ := badForcedPrimes_eq_false (by simpa using hb)
    rcases Nat.lt_or_ge 255 (s.opndA * s.opndB) with hn | hn
    · rw [keyTail_success 0 s hp hq hn] at h
      cases h
      exact .keyOk _ _ (Or.inr rfl) (tailKey_keyInv hp hq hne hpw hqw hn) (Nat.zero_le _)
    · rw [keyTail_small 0 s hn] at h
      cases h
      exact .keyBad _ _ _ (Or.inr rfl) (by simp) (Nat.zero_le _)

theorem execEncrypt_next {s t : State} (h : execEncrypt s = .next t) : ExecNext .encrypt s t := by
  unfold execEncrypt at h
  split_ifs at h with hk hl
  · cases h; exact .error _ (by simp) (by simp)
  · cases h; exact .error _ (by simp) (by simp)
  · split at h
    · cases h
    · rename_i ct hrun
      cases h
      exact .encrypted ct rfl (by simpa using hk) (by omega) hrun

theorem execDecrypt_next {s t : State} (h : execDecrypt s = .next t) : ExecNext .decrypt s t := by
  unfold execDecrypt at h
  split_ifs at h with hk hl
  · cases h; exact .error _ (by simp) (by simp)
  · cases h; exact .error _ (by simp) (by simp)
  · split at h
    · cases h
    · rename_i out hrun
      cases h
      exact .decrypted out rfl (by simpa using hk) (by omega) hrun

/-- Every next state of a command is one of the cases of `ExecNext`. -/
theorem exec_next {i : Instr} {s t : State} (h : exec i s = .next t) : ExecNext i s t := by
  cases i with
  | nop => cases h; exact .plain rfl
  | primeTest => cases h; exact .result _ (by simp)
  | gcd => cases h; exact .result _ (by simp)
  | modinv =>
    simp only [exec, execModinv] at h
    split_ifs at h <;> cases h
    · exact .result _ (by simp)
    · exact .error _ (by simp) (by simp)
    · exact .error _ (by simp) (by simp)
    · exact .result _ (by simp)
  | modexp =>
    simp only [exec, execModexp] at h
    split_ifs at h <;> cases h
    · exact .error _ (by simp) (by simp)
    · exact .result _ (by simp)
  | keygenRand => exact execKeygenRand_next h
  | keygenForced => exact execKeygenForced_next h
  | encrypt => exact execEncrypt_next h
  | decrypt => exact execDecrypt_next h

/-- The sequencer moves next: its event is the oldest one, or there is none (A1). -/
abbrev SequencerNext (s : State) : Prop := s.inputs = [] ∨ s.inputs.head? = some .sequencer

/-- The next states one step of the machine can answer, each with the event that leads there; `u` is the state with the
event taken off `inputs`. -/
inductive StepNext (s u : State) : State → Prop
  | idle (he : SequencerNext s) (h : u.seq = .idle) : StepNext s u u
  | command (i : Instr) (t : State) (he : SequencerNext s) (hs : u.seq = .run) (hd : decode u.latch.lw = .command i)
      (hx : ExecNext i u t) : StepNext s u t
  | illegal (why : IllegalWord) (he : SequencerNext s) (hs : u.seq = .run) (hd : decode u.latch.lw = .illegal why) :
      StepNext s u (u.raiseErr .badCmd)
  | read (v : Word) (off : Offset) (he : s.inputs.head? = some (.host (.read off))) : StepNext s u (u.respond v)
  | readFree (off : Offset) (he : s.inputs.head? = some (.host (.read off))) : StepNext s u u.respondFree
  | write (v : Word) (off : Offset) (tgt : Target) (he : s.inputs.head? = some (.host (.write off v)))
      (hl : locate u.cfg off = .ok tgt) : StepNext s u (State.writeTarget { u with busResp := none } v tgt)
  | answer (v : Word) (he : s.inputs.head? = some (.rngAnswer v)) : StepNext s u (u.rngAnswer v)
  | hardReset (he : s.inputs.head? = some .hardReset) : StepNext s u u.hardReset

theorem sequencerTurn_next {s u t : State} (he : SequencerNext s) (h : u.sequencerTurn = .next t) : StepNext s u t := by
  unfold State.sequencerTurn at h
  cases hs : u.seq with
  | idle => rw [hs] at h; cases h; exact .idle he hs
  | run =>
    rw [hs] at h
    simp only [State.runLatched] at h
    cases hd : decode u.latch.lw with
    | command i => rw [hd] at h; exact .command i t he hs hd (exec_next h)
    | illegal why => rw [hd] at h; cases h; exact .illegal why he hs hd

theorem hostAccess_next {s u t : State} {a : Access} (he : s.inputs.head? = some (.host a))
    (h : u.hostAccess a = .next t) : StepNext s u t := by
  cases a with
  | read off =>
    simp only [State.hostAccess, State.hostRead] at h
    split at h
    · cases h
    · rename_i tgt hl
      cases tgt <;> simp only [State.readTarget, State.readStored] at h <;> (try split_ifs at h) <;> (try split at h) <;>
        cases h <;> first | exact .read _ off he | exact .readFree off he
  | write off v =>
    simp only [State.hostAccess, State.hostWrite] at h
    split at h
    · cases h
    · rename_i tgt hl
      cases h
      exact .write v off tgt he hl

/-- Every next state of the machine is one of the cases of `StepNext`. -/
theorem step_next {s t : State} (h : step s = .next t) : StepNext s { s with inputs := s.inputs.tail } t := by
  unfold step State.nextStep at h
  cases hi : s.inputs with
  | nil =>
    rw [hi] at h
    have e : ({ s with inputs := ([] : List Event).tail } : State) = s := by
      cases s; simp only at hi; subst hi; rfl
    rw [e]
    exact sequencerTurn_next (Or.inl hi) h
  | cons ev rest =>
    rw [hi] at h
    have he : s.inputs.head? = some ev := by rw [hi]; rfl
    simp only [List.tail_cons]
    cases ev with
    | host a => exact hostAccess_next he h
    | sequencer => exact sequencerTurn_next (Or.inr he) h
    | rngAnswer v => cases h; exact .answer v he
    | hardReset => cases h; exact .hardReset he

/-- The offset of a mapped register is the register's own. -/
theorem offset_of_locate_reg {p : Params} {off : Offset} {r : Reg} (h : locate p off = .ok (.reg r)) : off = r.offset := by
  unfold locate at h
  split_ifs at h with ha
  split at h
  · rename_i t ht
    cases h
    unfold targetAt at ht
    by_cases h1 : off.toNat / 8 < 0x2000
    · rw [if_pos h1] at ht
      cases hr : regAt (off.toNat / 8) with
      | none => simp [hr] at ht
      | some r' =>
        simp only [hr, Option.map_some, Option.some.injEq, Target.reg.injEq] at ht
        subst ht
        apply BitVec.eq_of_toNat_eq
        unfold regAt at hr
        split at hr <;> cases hr <;> simp only [Reg.offset, BitVec.reduceToNat] <;> omega
    · rw [if_neg h1] at ht
      split_ifs at ht <;> simp at ht
  · cases h

/-- Every state a host write to a register can leave (R101, R102). -/
inductive WriteRegNext (u : State) (v : Word) : Reg → State → Prop
  | softReset (hv : v.getLsbD 1 = true) : WriteRegNext u v .ctrl u.softReset
  | irqEnable (hv : v.getLsbD 1 = false) : WriteRegNext u v .ctrl { u with irqEn := v.getLsbD 0 }
  | acknowledge (hv : v.getLsbD 0 = true) : WriteRegNext u v .irqStatus u.acknowledge
  | overrun (hb : u.status.busy = true) : WriteRegNext u v .cmd u.overrun
  | accept (hb : u.status.busy = false) : WriteRegNext u v .cmd (u.accept v)
  | opa : WriteRegNext u v .opa { u with opa := v }
  | opb : WriteRegNext u v .opb { u with opb := v }
  | opc : WriteRegNext u v .opc { u with opc := v }
  | msgLen : WriteRegNext u v .msgLen { u with msgLen := v }
  | ignored (r : Reg) (h : r ≠ .ctrl) (h' : r ≠ .cmd) : WriteRegNext u v r u

theorem writeReg_next (u : State) (v : Word) (r : Reg) : WriteRegNext u v r (u.writeReg v r) := by
  cases r with
  | ctrl =>
    simp only [State.writeReg]
    cases h : v.getLsbD 1
    · exact .irqEnable h
    · exact .softReset h
  | irqStatus =>
    simp only [State.writeReg]
    split_ifs with h
    · exact .acknowledge h
    · exact .ignored _ (by simp) (by simp)
  | cmd =>
    simp only [State.writeReg]
    cases h : u.status.busy
    · exact .accept h
    · exact .overrun h
  | opa => exact .opa
  | opb => exact .opb
  | opc => exact .opc
  | msgLen => exact .msgLen
  | _ => exact .ignored _ (by simp) (by simp)

/-- Every state a host write to a mapped offset can leave (R68, R101, R102). -/
inductive WriteTargetNext (u : State) (v : Word) : Target → State → Prop
  | reg (r : Reg) (t : State) (h : WriteRegNext u v r t) : WriteTargetNext u v (.reg r) t
  | msg (i : Nat) (hb : u.status.busy = false) : WriteTargetNext u v (.msg i) (u.storeMsg i (v.setWidth 8))
  | ct (i : Nat) (hb : u.status.busy = false) : WriteTargetNext u v (.ct i) (u.storeCt i v)
  | dropped (tgt : Target) (h : ∀ r, tgt ≠ .reg r) : WriteTargetNext u v tgt u

theorem writeTarget_next (u : State) (v : Word) (tgt : Target) : WriteTargetNext u v tgt (u.writeTarget v tgt) := by
  cases tgt with
  | reg r => exact .reg r _ (writeReg_next u v r)
  | msg i =>
    simp only [State.writeTarget]
    cases h : u.status.busy
    · exact .msg _ h
    · exact .dropped _ (by simp)
  | ct i =>
    simp only [State.writeTarget]
    cases h : u.status.busy
    · exact .ct _ h
    · exact .dropped _ (by simp)
  | dec i => exact .dropped _ (by simp)

theorem not_resetNext_of_sequencerNext {s : State} (h : SequencerNext s) : ¬ ResetNext s := by
  rintro (h' | ⟨v, _, h'⟩) <;> rcases h with h | h <;> rw [h] at h' <;> simp at h'

theorem not_cmdWriteNext_of_sequencerNext {s : State} (h : SequencerNext s) (w : Word) : ¬ CmdWriteNext s w := by
  intro h'
  unfold CmdWriteNext at h'
  rcases h with h | h <;> rw [h] at h' <;> simp at h'

theorem not_runs_of_head {s : State} {ev : Event} {i : Instr} (h : s.inputs.head? = some ev) (hn : ev ≠ .sequencer) :
    ¬ Runs s i := by
  rintro ⟨h' | h', _⟩
  · rw [h'] at h; simp at h
  · rw [h'] at h; cases h; exact hn rfl

end Sys2Proof.Machine
end

