-- ==== Sys2Proof/Laws/Host.lean ====
section
/-! SUPPORT. The address map at each kind of offset, the ranges of the parameters, and what one step does for each event
(20_memory.md R63, 70_reset_and_hazards.md R249). -/

namespace Sys2Proof.Machine

/-- MSG_MAX is at most 8192 (R7). -/
theorem msgMax_le (p : Params) : p.msgMax ≤ 8192 := by
  have := p.msgMaxPred.isLt
  unfold Params.msgMax
  omega

/-- MSG_MAX is at least 1 (R7). -/
theorem msgMax_pos (p : Params) : 1 ≤ p.msgMax := Nat.le_add_left 1 _

/-- KEYGEN_MAX_DRAWS is at most 2^32 − 1 (R7). -/
theorem maxDraws_le (p : Params) : p.maxDraws ≤ 2 ^ 32 - 1 := by
  have := p.maxDrawsPred.isLt
  unfold Params.maxDraws
  omega

/-- Every register is found at its offset (R20). -/
theorem locate_regOffset (p : Params) (r : Reg) : locate p r.offset = .ok (.reg r) := by cases r <;> rfl

theorem locate_of_msg (p : Params) (off : Offset) (i : Nat) (hi : i < p.msgMax) (ho : off.toNat = 0x10000 + 8 * i) :
    locate p off = .ok (.msg i) := by
  have := msgMax_le p
  unfold locate targetAt
  rw [if_neg (by omega), if_neg (by omega), if_pos (by omega), if_pos (by omega)]
  simp only [Except.ok.injEq, Target.msg.injEq]
  omega

theorem locate_of_ct (p : Params) (off : Offset) (i : Nat) (hi : i < p.msgMax) (ho : off.toNat = 0x20000 + 8 * i) :
    locate p off = .ok (.ct i) := by
  have := msgMax_le p
  unfold locate targetAt
  rw [if_neg (by omega), if_neg (by omega), if_neg (by omega), if_pos (by omega), if_pos (by omega)]
  simp only [Except.ok.injEq, Target.ct.injEq]
  omega

theorem locate_of_dec (p : Params) (off : Offset) (i : Nat) (hi : i < p.msgMax) (ho : off.toNat = 0x30000 + 8 * i) :
    locate p off = .ok (.dec i) := by
  have := msgMax_le p
  unfold locate targetAt
  rw [if_neg (by omega), if_neg (by omega), if_neg (by omega), if_neg (by omega), if_pos (by omega)]
  simp only [Except.ok.injEq, Target.dec.injEq]
  omega

theorem bufferOffset_toNat (base i : Nat) (hb : base ≤ 0x30000) (hi : i < 8192) :
    (BitVec.ofNat 18 (base + 8 * i)).toNat = base + 8 * i := by
  rw [BitVec.toNat_ofNat]
  exact Nat.mod_eq_of_lt (by omega)

/-- A name of R20 whose index is below MSG_MAX is found at its offset. -/
theorem locate_offset (p : Params) (t : Target)
    (h : match t with | .reg _ => True | .msg i => i < p.msgMax | .ct i => i < p.msgMax | .dec i => i < p.msgMax) :
    locate p t.offset = .ok t := by
  have hm := msgMax_le p
  cases t with
  | reg r => exact locate_regOffset p r
  | msg i => exact locate_of_msg p _ i h (bufferOffset_toNat _ _ (by norm_num) (Nat.lt_of_lt_of_le h hm))
  | ct i => exact locate_of_ct p _ i h (bufferOffset_toNat _ _ (by norm_num) (Nat.lt_of_lt_of_le h hm))
  | dec i => exact locate_of_dec p _ i h (bufferOffset_toNat _ _ (by norm_num) (Nat.lt_of_lt_of_le h hm))

/-- A buffer entry a write reaches lies below MSG_MAX (R63). -/
theorem index_lt_of_locate {p : Params} {off : Offset} {tgt : Target} (h : locate p off = .ok tgt) :
    match tgt with
    | .reg _ => True
    | .msg i => i < p.msgMax
    | .ct i => i < p.msgMax
    | .dec i => i < p.msgMax := by
  unfold locate at h
  split_ifs at h
  split at h
  · rename_i t ht
    cases h
    unfold targetAt at ht
    cases tgt with
    | reg r => trivial
    | msg i => split_ifs at ht <;> simp_all
    | ct i => split_ifs at ht <;> simp_all
    | dec i => split_ifs at ht <;> simp_all
  · cases h

/-- A word number is mapped exactly where R63 says. -/
theorem regAt_isSome_iff (k : Nat) : (regAt k).isSome = true ↔ k ≤ 17 := by
  unfold regAt
  split <;> simp_all
  omega

@[simp] theorem step_upNext (s : State) (ev : Event) : step (s.upNext ev) = s.agentStep ev := rfl

@[simp] theorem agentStep_read (s : State) (off : Offset) : s.agentStep (.host (.read off)) = s.hostRead off := rfl

@[simp] theorem agentStep_write (s : State) (off : Offset) (v : Word) :
    s.agentStep (.host (.write off v)) = s.hostWrite off v := rfl

@[simp] theorem agentStep_sequencer (s : State) : s.agentStep .sequencer = s.sequencerTurn := rfl

@[simp] theorem agentStep_rngAnswer (s : State) (v : Word) : s.agentStep (.rngAnswer v) = .next (s.rngAnswer v) := rfl

@[simp] theorem agentStep_hardReset (s : State) : s.agentStep .hardReset = .next s.hardReset := rfl

theorem hostRead_of_locate {s : State} {off : Offset} {tgt : Target} (h : locate s.cfg off = .ok tgt) :
    s.hostRead off = s.readTarget tgt := by
  simp [State.hostRead, h]

theorem hostWrite_of_locate {s : State} {off : Offset} {tgt : Target} (v : Word) (h : locate s.cfg off = .ok tgt) :
    s.hostWrite off v = .next (State.writeTarget { s with busResp := none } v tgt) := by
  simp [State.hostWrite, h]

theorem sequencerTurn_of_command {s : State} {i : Instr} (hs : s.seq = .run) (hd : decode s.latch.lw = .command i) :
    s.sequencerTurn = exec i s := by
  simp [State.sequencerTurn, State.runLatched, hs, hd]

theorem sequencerTurn_of_idle {s : State} (hs : s.seq = .idle) : s.sequencerTurn = .next s := by
  simp [State.sequencerTurn, hs]

theorem inFlight_eq_true_iff (s : State) (i : Instr) :
    s.inFlight i = true ↔ s.status.busy = true ∧ decode s.latch.lw = .command i := by
  simp [State.inFlight]

theorem bitWord_eq (b : Bool) : bitWord b = if b then 1#64 else 0#64 := by cases b <;> rfl

end Sys2Proof.Machine
end

