-- ==== Sys2Proof/Laws/PerInstr.lean ====
section
/-! SUPPORT. A family of facts per instruction, about each command as syntax: its word is a well-formed command word. -/

namespace Sys2Proof.Laws.WordOf

/-- The command is well formed and its word passes both checks of 30_encoding.md R82. -/
def Statement (i : Instr) : Prop := i.wf = true ∧ CommandWord.wf (encode i) = true

theorem nop : Statement .nop := by unfold Statement; decide
theorem primeTest : Statement .primeTest := by unfold Statement; decide
theorem gcd : Statement .gcd := by unfold Statement; decide
theorem modinv : Statement .modinv := by unfold Statement; decide
theorem modexp : Statement .modexp := by unfold Statement; decide
theorem keygenRand : Statement .keygenRand := by unfold Statement; decide
theorem keygenForced : Statement .keygenForced := by unfold Statement; decide
theorem encrypt : Statement .encrypt := by unfold Statement; decide
theorem decrypt : Statement .decrypt := by unfold Statement; decide

end Sys2Proof.Laws.WordOf
end

