-- ==== Sys2Proof/Tests/Slice0.lean ====
section
/-! SUPPORT. Tests. The expected values are the spec's own (the rule, corner table or vector each comment names). The
`test_witness_…` theorems show, for each obligation with hypotheses, concrete states and operands that meet them. -/

namespace Sys2Proof.Tests

open Sys2Proof Sys2Proof.Machine

/-! ## Helpers -/

/-- A block after reset with MSG_MAX = 16 and KEYGEN_MAX_DRAWS = 6. -/
def block : State := { State.reset with cfg := ⟨15, 4⟩ }

/-- The block with the three operand registers set. -/
def operands (a b c : Word) : State := { block with opa := a, opb := b, opc := c }

/-- The key of (101, 103) (44_keygen.md R183). -/
def key101 : KeyRegs := ⟨101#64, 103#64, 10403#64, 10200#64, 7#64, 8743#64⟩

/-- The block with that key and MSG_LEN = `len`. -/
def keyed (len : Word) : State :=
  { block with
    keys := key101, status := { block.status with keyValid := true },
    msgLen := len }

/-- The command `i` accepted by `s`. -/
def issued (s : State) (i : Instr) : State := s.accept (encode i)

/-- A next state that meets `p`. -/
def nextWith (o : Host.Outcome State Fault Refusal) (p : State → Bool) : Bool :=
  match o with
  | .next t => p t
  | _       => false

/-! ## Well-formedness: each check refuses an ill-formed term -/

theorem test_wf_refuses_reserved_bits : CommandWord.wf 0x101#64 = false := by decide
theorem test_wf_refuses_reserved_bits_alone : CommandWord.reservedClear 0x101#64 = false := by decide
theorem test_wf_refuses_unassigned_opcode : CommandWord.opcodeAssigned 0x9#64 = false := by decide
theorem test_wf_accepts_the_last_opcode : CommandWord.wf 0x8#64 = true := by decide
theorem test_script_refuses_undefined_label :
    programWf [plain (.bnz (.reg .status) 1#64 (.named "L"))] = false := by decide
theorem test_script_refuses_duplicate_label :
    programWf [⟨[.named "L"], .rd (.reg .res)⟩, ⟨[.named "L"], .rd (.reg .id)⟩] = false := by decide
theorem test_script_refuses_index_outside_window : programWf [plain (.rd (.msg 8192))] = false := by decide
theorem test_script_accepts_wait : programWf (Pseudo.wait.expand 0) = true := by decide

/-! ## Decoding: the words of R83 written out field by field, RSVD [63:8] then OPCODE [7:0] (R80) -/

theorem test_decode_nop : decode (0#56 ++ 0b00000000#8) = .command .nop := by decide
theorem test_decode_prime_test : decode (0#56 ++ 0b00000001#8) = .command .primeTest := by decide
theorem test_decode_gcd : decode (0#56 ++ 0b00000010#8) = .command .gcd := by decide
theorem test_decode_modinv : decode (0#56 ++ 0b00000011#8) = .command .modinv := by decide
theorem test_decode_modexp : decode (0#56 ++ 0b00000100#8) = .command .modexp := by decide
theorem test_decode_keygen_rand : decode (0#56 ++ 0b00000101#8) = .command .keygenRand := by decide
theorem test_decode_keygen_forced : decode (0#56 ++ 0b00000110#8) = .command .keygenForced := by decide
theorem test_decode_encrypt : decode (0#56 ++ 0b00000111#8) = .command .encrypt := by decide
theorem test_decode_decrypt : decode (0#56 ++ 0b00001000#8) = .command .decrypt := by decide
theorem test_decode_top_reserved_bit : decode (1#1 ++ 0#55 ++ 0b00000010#8) = .illegal .reservedBits := by decide
theorem test_decode_low_reserved_bit : decode (1#56 ++ 0b00000001#8) = .illegal .reservedBits := by decide
theorem test_decode_last_opcode : decode (0#56 ++ 0b11111111#8) = .illegal .unassignedOpcode := by decide
theorem test_decode_table_word : decodeTableWord 64 3 = some .modinv ∧ decodeTableWord 64 9 = none := by decide

/-! ## Commands: two small tests each, one step -/

/-- 95 "after reset, `wr CMD, 0x0`; completion". -/
theorem test_nop_status : nextWith (exec .nop (issued block .nop)) (fun t => t.status.word == 2#64 && t.donePend) = true := by
  decide +kernel

/-- R132: 961 = 31², the bound is inclusive. -/
theorem test_prime_square : nextWith (exec .primeTest (issued (operands 961#64 0#64 0#64) .primeTest))
    (fun t => t.res == 0#64) = true := by decide +kernel

/-- R132: the largest prime in the draw range. -/
theorem test_prime_997 : nextWith (exec .primeTest (issued (operands 997#64 0#64 0#64) .primeTest))
    (fun t => t.res == 1#64) = true := by decide +kernel

/-- R142, and `STATUS` of 95. -/
theorem test_gcd : nextWith (exec .gcd (issued (operands 1071#64 462#64 0#64) .gcd))
    (fun t => t.res == 21#64 && t.status.word == 0x00020002#64) = true := by decide +kernel

/-- R142: the largest operand. -/
theorem test_gcd_wide : nextWith (exec .gcd (issued (operands 0xFFFFFFFFFFFFFFFF#64 0x7FFFFFFFFFFFFFFF#64 0#64) .gcd))
    (fun t => t.res == 1#64) = true := by decide +kernel

/-- 95 2.3: the widest inverse. -/
theorem test_modinv_wide : nextWith (exec .modinv (issued (operands 3#64 18446743970630336620#64 0#64) .modinv))
    (fun t => t.res == 12297829313753557747#64) = true := by decide +kernel

/-- R148: Bézout coefficient −5, plus 17. -/
theorem test_modinv_negative : nextWith (exec .modinv (issued (operands 10#64 17#64 0#64) .modinv))
    (fun t => t.res == 12#64) = true := by decide +kernel

/-- R162: products near 2^126 stay exact. -/
theorem test_modexp_wide : nextWith (exec .modexp (issued (operands 7#64 0xFFFFFFFFFFFFFFFF#64 0x8000000000000001#64) .modexp))
    (fun t => t.res == 7939064727723358405#64) = true := by decide +kernel

/-- R162: x = 0 and m = 1 give 1, not 0. -/
theorem test_modexp_zero_exponent : nextWith (exec .modexp (issued (operands 5#64 0#64 1#64) .modexp))
    (fun t => t.res == 1#64) = true := by decide +kernel

/-- R171's example: draws 100, 101, 101, 1000, 103. -/
theorem test_keygen_rand : nextWith
    (exec .keygenRand { issued block .keygenRand with rngAnswers := [100#64, 101#64, 101#64, 1000#64, 103#64] })
    (fun t => t.keys == ⟨101#64, 103#64, 10403#64, 10200#64, 7#64, 8743#64⟩ && t.draws == 5#64 &&
      t.status.word == 0x0005000A#64) = true := by decide +kernel

/-- 95 2.5: draws 101, 1001. -/
theorem test_keygen_rand_range : nextWith
    (exec .keygenRand { issued block .keygenRand with rngAnswers := [101#64, 1001#64] })
    (fun t => t.keys == ⟨101#64, 0#64, 0#64, 0#64, 0#64, 0#64⟩ && t.draws == 2#64 &&
      t.status.word == 0x00050706#64) = true := by decide +kernel

/-- R183: (61, 53). -/
theorem test_keygen_forced : nextWith (exec .keygenForced (issued (operands 61#64 53#64 0#64) .keygenForced))
    (fun t => t.keys == ⟨61#64, 53#64, 3233#64, 3120#64, 7#64, 1783#64⟩ && t.status.word == 0x0006000A#64) = true := by
  decide +kernel

/-- R175's example: (2, 3) keeps n = 6 and φ = 2 and no exponents. -/
theorem test_keygen_forced_small : nextWith (exec .keygenForced (issued (operands 2#64 3#64 0#64) .keygenForced))
    (fun t => t.keys == ⟨2#64, 3#64, 6#64, 2#64, 0#64, 0#64⟩ && t.status.word == 0x00060406#64) = true := by
  decide +kernel

/-- R191's example: "HI". -/
theorem test_encrypt : nextWith
    (exec .encrypt (issued { keyed 2#64 with mem := ⟨[(0, 72#8), (1, 73#8)], [], []⟩ } .encrypt))
    (fun t => t.mem.ct == [(0, 9439#64), (1, 7716#64)] && t.status.word == 0x0007000A#64) = true := by decide +kernel

/-- 95 2.6: no key and MSG_LEN = 2^63: `NO_KEY` comes first. -/
theorem test_encrypt_no_key : nextWith
    (exec .encrypt (issued { block with msgLen := 0x8000000000000000#64 } .encrypt))
    (fun t => t.status.word == 0x00070906#64) = true := by decide +kernel

/-- 95 2.6: `CT_BUF` = 300 gives 176 (below), 19842 (above n) gives 72. -/
theorem test_decrypt : nextWith
    (exec .decrypt (issued { keyed 2#64 with mem := ⟨[], [(0, 300#64), (1, 19842#64)], []⟩ } .decrypt))
    (fun t => t.mem.dec == [(0, 176#64), (1, 72#64)] && t.status.word == 0x0008000A#64) = true := by decide +kernel

/-- R191: MSG_LEN = MSG_MAX + 1. -/
theorem test_decrypt_too_long : nextWith (exec .decrypt (issued (keyed 17#64) .decrypt))
    (fun t => t.status.word == 0x00080A0E#64 && t.mem.dec == []) = true := by decide +kernel

/-! ## Host accesses (95 section 2.1) -/

/-- The word read at an offset. -/
def readsAs (s : State) (off : Offset) (v : Word) : Bool :=
  nextWith (step (s.upNext (.host (.read off)))) (fun t => t.busResp == some v)

theorem test_read_id : readsAs block 0x000#18 0x5253415F434F5245#64 = true := by decide +kernel

/-- R22: {0, KEYGEN_MAX_DRAWS = 6, MSG_MAX = 16}. -/
theorem test_read_cfg : readsAs block 0x008#18 0x0000000000060010#64 = true := by decide +kernel

theorem test_message_write_keeps_a_byte :
    nextWith (step (block.upNext (.host (.write 0x10000#18 0x148#64)))) (fun t => readsAs t 0x10000#18 0x48#64) = true := by
  decide +kernel

theorem test_acceptance_status :
    nextWith (step ((operands 12#64 18#64 0#64).upNext (.host (.write 0x028#18 2#64))))
      (fun t => t.status.word == 0x00020001#64 && t.latch.la == 12#64 && t.latch.lb == 18#64) = true := by decide +kernel

theorem test_overrun_status :
    nextWith (step ((issued block .keygenRand).upNext (.host (.write 0x028#18 2#64))))
      (fun t => t.cmd == 5#64 && { t.status with keyValid := false }.word == 0x00050011#64) = true := by decide +kernel

/-- 95: `wr CMD, 0x101`; completion. -/
theorem test_reserved_word_completes :
    nextWith (step ((block.accept 0x101#64).upNext .sequencer)) (fun t => t.status.word == 0x00010106#64) = true := by
  decide +kernel

/-- 95: `wr CTRL, 3` is a soft reset and leaves `CTRL` = 0. -/
theorem test_control_reset_bit_wins :
    nextWith (step ({ keyed 2#64 with irqEn := true }.upNext (.host (.write 0x010#18 3#64))))
      (fun t => !t.irqEn && t.status.word == 0#64 && t.keys == KeyRegs.zero) = true := by decide +kernel

/-- 95 2.7: a masked completion pends, and `irq` rises when `IRQ_EN` is set. -/
theorem test_masked_interrupt :
    nextWith (step ({ block with donePend := true }.upNext (.host (.write 0x010#18 1#64)))) (fun t => t.irq) = true := by
  decide +kernel

/-- 95 2.7: an abandoned `ENCRYPT` leaves its output entries unwritten and the others as they were. -/
theorem test_soft_reset_forgets_output :
    nextWith (step ((issued { keyed 2#64 with mem := ⟨[(0, 1#8)], [(1, 5#64), (2, 6#64)], []⟩ } .encrypt).upNext
      (.host (.write 0x010#18 2#64)))) (fun t => t.mem == ⟨[(0, 1#8)], [(2, 6#64)], []⟩ && !t.donePend) = true := by
  decide +kernel

/-- 95: MSG_MAX = 16, `rd` offset 0x10080 is unmapped. -/
theorem test_entry_past_the_buffer :
    step (block.upNext (.host (.read 0x10080#18))) = .fault (.hostUnmapped 0x10080#18) := rfl

/-- The first step after a placed command is that command's completion, from the state after reset. -/
theorem test_placed_command_runs :
    nextWith (step (State.reset.withFetchWord 64 0)) (fun t => t.status.word == 2#64) = true := by decide +kernel

/-- R87: `gcd a, b`. -/
theorem test_script_gcd_expands :
    Pseudo.expand 3 (.gcd 12#64 18#64) =
      [⟨[], .wr (.reg .opa) 12#64⟩, ⟨[], .wr (.reg .opb) 18#64⟩, ⟨[], .wr (.reg .cmd) 2#64⟩,
        ⟨[.fresh 3], .bnz (.reg .status) 1#64 (.fresh 3)⟩, ⟨[], .rd (.reg .res)⟩] := by decide

/-- R86, R87: the buffer names of R20 as REG, at the last index of each window. -/
theorem test_script_buffer_names :
    Stmt.access (.bnz (.ct 8191) 1#64 (.named "L")) = .read 0x2FFF8#18 ∧
    Stmt.access (.wr (.dec 1) 5#64) = .write 0x30008#18 5#64 ∧
    (Pseudo.expand 0 (.expect (.dec 8191) 72#64)).map (fun l => l.stmt.access) = [.read 0x3FFF8#18] := by decide

/-- The memory of `State.reset` is in canonical form. -/
theorem test_reset_memory_wf : State.reset.mem.wf := by decide

/-- 95 P2: `rd DEC_BUF[1]` at 0x30008, idle, after the decryption of "HI". -/
theorem test_read_decrypted_entry :
    readsAs { keyed 2#64 with mem := ⟨[], [], [(0, 72#64), (1, 73#64)]⟩ } 0x30008#18 73#64 = true := by decide +kernel

/-! ## Witnesses: every obligation with hypotheses has states and operands that meet them -/

/-- A `GCD` in flight with no coming event. -/
def gcdRunning : State := issued (operands 12#64 18#64 0#64) .gcd

/-- A `KEYGEN_RAND` in flight that has received `draws`. -/
def drawing (draws : List Word) : State := { issued block .keygenRand with rngAnswers := draws }

/-- A cipher command `i` in flight over two written entries of each buffer, under the key of (101, 103). -/
def ciphering (i : Instr) : State :=
  issued { keyed 2#64 with mem := ⟨[(0, 72#8), (1, 73#8)], [(0, 9439#64), (1, 7716#64)], [(0, 1#64)]⟩ } i

theorem prime_101 : Nat.Prime 101 := by norm_num
theorem prime_103 : Nat.Prime 103 := by norm_num

/-- The key of (101, 103) meets R44 (R183). -/
theorem key101_keyInv : KeyInv key101 :=
  ⟨prime_101, prime_103, by decide, by decide, by decide, by decide, by decide, by decide, by decide, by decide⟩

theorem test_witness_StepRunsDecodedCommand :
    gcdRunning.seq = .run ∧ decode gcdRunning.latch.lw = .command .gcd ∧ gcdRunning.inputs = [] := by decide

theorem test_witness_IdleSequencerChangesNothing : block.seq = .idle := rfl

theorem test_witness_IllegalCommandCompletesBadCmd :
    (block.accept 0x9#64).seq = .run ∧ 0x9 ≤ (block.accept 0x9#64).latch.lw.toNat ∧
      0x9 ≤ (block.accept 0xFFFFFFFFFFFFFFFF#64).latch.lw.toNat := by decide

theorem test_witness_CommandsEndWithCompletionFlags :
    exec .keygenRand (drawing [100#64]) = .next (drawing [100#64]) ∧ (drawing [100#64]).drawResult = .waiting ∧
      ∃ t, exec .nop block = .next t ∧ t.seq = .idle := ⟨rfl, rfl, _, rfl, rfl⟩

theorem test_witness_CommandWriteIsAccepted : block.status.busy = false := rfl

theorem test_witness_CommandWriteOverruns : gcdRunning.status.busy = true := rfl

theorem test_witness_MisalignedAccessFaults :
    (0x00001#18).toNat % 8 ≠ 0 ∧ (0x00004#18).toNat % 8 ≠ 0 ∧ (0x3FFFF#18).toNat % 8 ≠ 0 := by decide

/-- The last mapped and the first unmapped offset of the register block, and of `MSG_BUF` with MSG_MAX = 16. -/
theorem test_witness_UnmappedAccessFaults :
    (0x00088#18).toNat % 8 = 0 ∧ (0x00088#18).toNat ≤ 0x088 ∧
    (0x00090#18).toNat % 8 = 0 ∧ ¬ (0x00090#18).toNat ≤ 0x088 ∧ (0x00090#18).toNat < 0x10000 ∧
    (0x10078#18).toNat = 0x10000 + 8 * 15 ∧ 15 < block.cfg.msgMax ∧
    (0x10080#18).toNat = 0x10000 + 8 * 16 ∧ ¬ 16 < block.cfg.msgMax := by decide

/-- The first and the last pair of the list, in a block with a key. -/
theorem test_witness_RegisterReadsAnswerTheRegister :
    let s := keyed 2#64
    let table : List (Offset × Word) :=
      [(0x000#18, 0x5253415F434F5245#64), (0x008#18, cfgWord s.cfg), (0x010#18, if s.irqEn then 1#64 else 0#64),
        (0x018#18, s.status.word), (0x020#18, if s.donePend then 1#64 else 0#64), (0x028#18, s.cmd), (0x030#18, s.opa),
        (0x038#18, s.opb), (0x040#18, s.opc), (0x048#18, s.res), (0x050#18, s.msgLen), (0x058#18, s.draws),
        (0x060#18, s.keys.p), (0x068#18, s.keys.q), (0x070#18, s.keys.n), (0x078#18, s.keys.phi), (0x080#18, s.keys.e),
        (0x088#18, s.keys.d)]
    (0x000#18, 0x5253415F434F5245#64) ∈ table ∧ (0x088#18, 8743#64) ∈ table := by decide +kernel

theorem test_witness_ConfigurationIsConstant : ∃ t, step block = .next t := ⟨_, rfl⟩

theorem test_witness_ReadsHaveNoSideEffect :
    (∃ t, step (block.upNext (.host (.read 0x018#18))) = .next t) ∧
    ∃ t, step ((ciphering .encrypt).upNext (.host (.read 0x20000#18))) = .next t ∧ t.freeCtr = 1 :=
  ⟨⟨_, rfl⟩, _, rfl, rfl⟩

theorem test_witness_OperandRegistersAreLatched : ∃ t, exec .gcd gcdRunning = .next t := ⟨_, rfl⟩

/-- The read-only offsets at both ends of the list, and the last `DEC_BUF` entry of MSG_MAX = 16. -/
theorem test_witness_ReadOnlyWritesAreIgnored :
    let offsets : List Offset := [0x000#18, 0x008#18, 0x018#18, 0x048#18, 0x058#18, 0x060#18, 0x068#18, 0x070#18, 0x078#18,
      0x080#18, 0x088#18]
    0x000#18 ∈ offsets ∧ 0x088#18 ∈ offsets ∧ 15 < block.cfg.msgMax ∧ (0x30078#18).toNat = 0x30000 + 8 * 15 := by
  decide +kernel

/-- Bit 1 clear and bit 1 set, each with bit 0 set. -/
theorem test_witness_ControlRegisterWrites :
    (1#64).getLsbD 1 = false ∧ (3#64).getLsbD 1 = true ∧ (3#64).getLsbD 0 = true := by decide

/-- `DONE_PEND` rises at a completion, and falls by the acknowledgement and by the resets. -/
theorem test_witness_CompletionIsTheOnlyInterruptSource :
    (∃ t, step gcdRunning = .next t ∧ gcdRunning.donePend = false ∧ t.donePend = true) ∧
    (∃ s t, step s = .next t ∧ s.donePend = true ∧ t.donePend = false ∧
      s.inputs.head? = some (.host (.write 0x020#18 1#64)) ∧ (1#64).getLsbD 0 = true) ∧
    (∃ s t, step s = .next t ∧ s.donePend = true ∧ t.donePend = false ∧
      s.inputs.head? = some (.host (.write 0x010#18 2#64)) ∧ (2#64).getLsbD 1 = true) ∧
    ∃ s t, step s = .next t ∧ s.donePend = true ∧ t.donePend = false ∧ s.inputs.head? = some .hardReset :=
  ⟨⟨_, rfl, rfl, rfl⟩,
   ⟨State.upNext { block with donePend := true } (.host (.write 0x020#18 1#64)), _, rfl, rfl, rfl, rfl, rfl⟩,
   ⟨State.upNext { block with donePend := true } (.host (.write 0x010#18 2#64)), _, rfl, rfl, rfl, rfl, rfl⟩,
   ⟨State.upNext { block with donePend := true } .hardReset, _, rfl, rfl, rfl, rfl⟩⟩

theorem test_witness_BufferWriteThenRead :
    block.status.busy = false ∧ 0 < block.cfg.msgMax ∧ 15 < block.cfg.msgMax := by decide

/-- Written entries of an idle block at the first and the last index, and a success of each cipher command. -/
theorem test_witness_StoredEntriesReadBack :
    let m : Memory := ⟨[(0, 1#8), (15, 2#8)], [(0, 3#64), (15, 4#64)], [(0, 5#64), (15, 6#64)]⟩
    let s : State := { block with mem := m }
    s.status.busy = false ∧ 15 < s.cfg.msgMax ∧ bufGet s.mem.msg 15 = some 2#8 ∧ bufGet s.mem.ct 0 = some 3#64 ∧
    bufGet s.mem.dec 15 = some 6#64 ∧ 1 < (ciphering .encrypt).latch.llen.toNat ∧
    (∃ t, exec .encrypt (ciphering .encrypt) = .next t ∧ t.status.errcode = .ok) ∧
    ∃ t, exec .decrypt (ciphering .decrypt) = .next t ∧ t.status.errcode = .ok :=
  ⟨by decide, by decide, by decide, by decide, by decide, by decide, ⟨_, rfl, rfl⟩, _, rfl, rfl⟩

theorem test_witness_BuffersWhileBusy :
    (ciphering .encrypt).status.busy = true ∧ 0 < (ciphering .encrypt).cfg.msgMax ∧
    bufGet (ciphering .encrypt).mem.msg 1 = some 73#8 ∧
    decode (ciphering .encrypt).latch.lw = .command .encrypt ∧
    decode (ciphering .decrypt).latch.lw = .command .decrypt ∧
    decode (ciphering .decrypt).latch.lw ≠ .command .encrypt ∧ bufGet (ciphering .decrypt).mem.ct 1 = some 7716#64 ∧
    decode (ciphering .encrypt).latch.lw ≠ .command .decrypt ∧ bufGet (ciphering .encrypt).mem.dec 0 = some 1#64 := by
  decide

/-- Unwritten entries for the host (idle, and busy with the other cipher command), and for the two cipher commands at
their first entry and at their last. -/
theorem test_witness_UnwrittenReadsFault :
    15 < block.cfg.msgMax ∧ bufGet block.mem.msg 15 = none ∧ bufGet block.mem.ct 15 = none ∧
    bufGet block.mem.dec 15 = none ∧ block.status.busy = false ∧
    bufGet (ciphering .decrypt).mem.ct 2 = none ∧ decode (ciphering .decrypt).latch.lw ≠ .command .encrypt ∧
    bufGet (ciphering .encrypt).mem.dec 1 = none ∧ decode (ciphering .encrypt).latch.lw ≠ .command .decrypt ∧
    (∃ s : State, s.status.keyValid = true ∧ s.latch.llen.toNat ≤ s.cfg.msgMax ∧ 1 < s.latch.llen.toNat ∧
      bufGet s.mem.msg 1 = none ∧ bufGet s.mem.ct 1 = none ∧
      ∀ j, j < 1 → (bufGet s.mem.msg j).isSome ∧ (bufGet s.mem.ct j).isSome) ∧
    ∃ s : State, s.status.keyValid = true ∧ s.latch.llen.toNat ≤ s.cfg.msgMax ∧ 0 < s.latch.llen.toNat ∧
      bufGet s.mem.msg 0 = none ∧ bufGet s.mem.ct 0 = none :=
  ⟨by decide, rfl, rfl, rfl, rfl, by decide, by decide, by decide, by decide,
   ⟨issued { keyed 2#64 with mem := ⟨[(0, 1#8)], [(0, 1#64)], []⟩ } .encrypt, by decide, by decide, by decide, by decide,
     by decide, by decide⟩,
   ⟨issued (keyed 1#64) .encrypt, by decide, by decide, by decide, by decide, by decide⟩⟩

theorem test_witness_ResetRegistersReadSpecValues :
    (∃ t l, step { keyed 2#64 with inputs := .hardReset :: l } = .next t) ∧
    (∃ t l, (2#64).getLsbD 1 = true ∧
      step { gcdRunning with inputs := .host (.write 0x010#18 2#64) :: l } = .next t) ∧
    ∃ t, t = State.reset := ⟨⟨_, [], rfl⟩, ⟨_, [], rfl, rfl⟩, _, rfl⟩

theorem test_witness_SoftResetKeepsTheBuffers :
    (2#64).getLsbD 1 = true ∧ (ciphering .encrypt).status.busy = true ∧
    decode (ciphering .encrypt).latch.lw = .command .encrypt ∧ 1 < (ciphering .encrypt).latch.llen.toNat ∧
    ¬ 2 < (ciphering .encrypt).latch.llen.toNat ∧ decode (ciphering .decrypt).latch.lw = .command .decrypt := by decide

theorem test_witness_PrimeTestDecidesPrimality :
    (issued (operands 101#64 0#64 0#64) .primeTest).latch.la.toNat.Prime ∧
    ¬ (issued (operands 961#64 0#64 0#64) .primeTest).latch.la.toNat.Prime :=
  ⟨prime_101, show ¬ Nat.Prime 961 by norm_num⟩

/-- One state for each outcome of `MODINV`: φ = 1, φ = 0, not coprime, and φ = 2, the least with an inverse. -/
theorem test_witness_ModinvChecksThenInverts :
    (operands 0#64 1#64 0#64).opb.toNat = 1 ∧ (operands 5#64 0#64 0#64).opb.toNat = 0 ∧
    Nat.gcd (operands 0#64 7#64 0#64).opa.toNat (operands 0#64 7#64 0#64).opb.toNat ≠ 1 ∧
    Nat.gcd (operands 3#64 2#64 0#64).opa.toNat (operands 3#64 2#64 0#64).opb.toNat = 1 := by decide

theorem test_witness_ModexpIsThePowerModulo :
    (operands 10#64 3#64 0#64).opc.toNat = 0 ∧ (operands 5#64 0#64 1#64).opc.toNat ≠ 0 ∧
    (operands 5#64 0#64 1#64).opb.toNat = 0 ∧ (operands 5#64 1#64 1#64).opb.toNat ≠ 0 := by decide

/-- `RES` changes by a success, by either reset, and not by an error. -/
theorem test_witness_ResultChangesOnlyBySuccess :
    (∃ t, step gcdRunning = .next t ∧ t.res = 6#64) ∧
    (∃ t, step (State.upNext { block with res := 5#64 } .hardReset) = .next t ∧ t.res = 0#64) ∧
    ∃ t, step (issued { operands 5#64 0#64 0#64 with res := 5#64 } .modinv) = .next t ∧ t.res = 5#64 :=
  ⟨⟨_, rfl, by decide +kernel⟩, ⟨_, rfl, rfl⟩, _, rfl, rfl⟩

/-- Each branch of `KEYGEN_FORCED`: a repeated prime, the widest p·q at most 255 among small primes, and the least above. -/
theorem test_witness_KeygenForcedOutcome :
    ¬ (101 < 2 ^ 32 ∧ 101 < 2 ^ 32 ∧ Nat.Prime 101 ∧ Nat.Prime 101 ∧ 101 ≠ 101) ∧
    (2 < 2 ^ 32 ∧ 127 < 2 ^ 32 ∧ Nat.Prime 2 ∧ Nat.Prime 127 ∧ 2 ≠ 127) ∧ 2 * 127 ≤ 255 ∧
    (2 < 2 ^ 32 ∧ 131 < 2 ^ 32 ∧ Nat.Prime 2 ∧ Nat.Prime 131 ∧ 2 ≠ 131) ∧ ¬ 2 * 131 ≤ 255 :=
  ⟨fun h => h.2.2.2.2 rfl, ⟨by decide, by decide, by norm_num, by norm_num, by decide⟩, by decide,
   ⟨by decide, by decide, by norm_num, by norm_num, by decide⟩, by decide⟩

theorem rejected_100 (p : Nat) : rejectedDraw p 100#64 :=
  ⟨by decide, by decide, Or.inl (show ¬ Nat.Prime 100 by norm_num)⟩
theorem rejected_1000 (p : Nat) : rejectedDraw p 1000#64 :=
  ⟨by decide, by decide, Or.inl (show ¬ Nat.Prime 1000 by norm_num)⟩
theorem rejected_repeat : rejectedDraw 101 101#64 := ⟨by decide, by decide, Or.inr ⟨by decide, rfl⟩⟩
theorem drawn_101 : drawnPrime (101#64).toNat := ⟨prime_101, by decide, by decide⟩
theorem drawn_103 : drawnPrime (103#64).toNat := ⟨prime_103, by decide, by decide⟩

/-- The draws of R171's example, within KEYGEN_MAX_DRAWS = 6. -/
theorem test_witness_KeygenRandSucceeds :
    let s := drawing [100#64, 101#64, 101#64, 1000#64, 103#64]
    s.rngAnswers = [100#64] ++ 101#64 :: ([101#64, 1000#64] ++ 103#64 :: []) ∧
    [100#64].length + [101#64, 1000#64].length + 2 ≤ s.cfg.maxDraws ∧
    (∀ r ∈ [100#64], rejectedDraw 0 r) ∧ drawnPrime (101#64).toNat ∧
    (∀ r ∈ [101#64, 1000#64], rejectedDraw (101#64).toNat r) ∧ drawnPrime (103#64).toNat ∧ 103#64 ≠ 101#64 := by
  refine ⟨rfl, by decide, ?_, drawn_101, ?_, drawn_103, by decide⟩
  · intro r hr
    rw [List.mem_singleton.1 hr]
    exact rejected_100 0
  · intro r hr
    rcases List.mem_cons.1 hr with rfl | hr
    · exact rejected_repeat
    · rw [List.mem_singleton.1 hr]; exact rejected_1000 _

/-- Each clause: a first draw out of range (99 and 1001 are the nearest), a later one, and the bound reached in each loop. -/
theorem test_witness_KeygenRandFails :
    ((drawing [99#64]).rngAnswers = [] ++ 99#64 :: [] ∧ (99#64).toNat < 100 ∧ 0 < (drawing [99#64]).cfg.maxDraws) ∧
    ((drawing [101#64, 1001#64]).rngAnswers = [] ++ 101#64 :: ([] ++ 1001#64 :: []) ∧ 0 + 0 + 1 < block.cfg.maxDraws ∧
      drawnPrime (101#64).toNat ∧ 1000 < (1001#64).toNat) ∧
    ((List.replicate 6 100#64).length = block.cfg.maxDraws ∧ ∀ x ∈ List.replicate 6 100#64, rejectedDraw 0 x) ∧
    ([] : List Word).length + (List.replicate 5 100#64).length + 1 = block.cfg.maxDraws ∧
      drawnPrime (101#64).toNat ∧ ∀ x ∈ List.replicate 5 100#64, rejectedDraw (101#64).toNat x :=
  ⟨⟨rfl, by decide, by decide⟩, ⟨rfl, by decide, drawn_101, by decide⟩,
   ⟨rfl, fun _ h => by rw [List.eq_of_mem_replicate h]; exact rejected_100 0⟩,
   rfl, drawn_101, fun _ h => by rw [List.eq_of_mem_replicate h]; exact rejected_100 _⟩

/-- Waiting before any draw and after one prime and a rejected draw; and blocks that do not ask: idle, another command in
flight, and a `KEYGEN_RAND` in flight with two primes, with a draw out of range, and at the bound. -/
theorem test_witness_KeygenRandWaitsForDraws :
    ((drawing []).status.busy = true ∧ (drawing []).seq = .run ∧ decode (drawing []).latch.lw = .command .keygenRand ∧
      (drawing []).rngAnswers.length < (drawing []).cfg.maxDraws) ∧
    ((drawing [101#64, 101#64]).rngAnswers = [] ++ 101#64 :: [101#64] ∧ drawnPrime (101#64).toNat ∧
      ∀ r ∈ [101#64], rejectedDraw (101#64).toNat r) ∧
    (block.awaitsDraw = false ∧ block.status.busy = false) ∧
    (gcdRunning.awaitsDraw = false ∧ decode gcdRunning.latch.lw ≠ .command .keygenRand) ∧
    (∀ draws ∈ [[101#64, 103#64], [99#64], List.replicate 6 100#64], (drawing draws).awaitsDraw = false) ∧
    exec .keygenRand (drawing [99#64]) ≠ .next (drawing [99#64]) := by
  refine ⟨by decide, ⟨rfl, drawn_101, fun r hr => by rw [List.mem_singleton.1 hr]; exact rejected_repeat⟩, by decide,
    by decide, by decide +kernel, fun h => ?_⟩
  have hs : Seq.idle = Seq.run := congrArg State.seq (Host.Outcome.next.inj h)
  exact absurd hs (by decide)

theorem test_witness_KeygenErrorReachability :
    (∃ t, exec .keygenRand (drawing [101#64, 103#64]) = .next t) ∧
    ∃ t, exec .keygenForced (issued (operands 2#64 127#64 0#64) .keygenForced) = .next t ∧
      t.status.errcode = .modulusTooSmall := ⟨⟨_, rfl⟩, _, rfl, by decide +kernel⟩

/-- A key generation ends, a reset clears the key, and a reachable state (the one after reset) has no key. -/
theorem test_witness_KeyValidChangesOnlyByKeygen :
    (∃ s t, step s = .next t ∧ Runs s .keygenRand ∧ t.seq = .idle) ∧
    (∃ s t, step s = .next t ∧ ResetNext s ∧ t.status.keyValid ≠ s.status.keyValid) ∧ Reachable State.reset :=
  ⟨⟨drawing [5#64], _, rfl, ⟨Or.inl rfl, rfl, rfl⟩, rfl⟩,
   ⟨(keyed 2#64).upNext .hardReset, _, rfl, Or.inl rfl, by decide⟩,
   .start ⟨Config.params, [], rfl⟩⟩

/-- The four steps that take the block from reset to a valid key: p, q, the command, the sequencer's turn. -/
theorem test_witness_ReachableKeysSatisfyTheKeyInvariant : ∃ s, Reachable s ∧ s.status.keyValid = true := by
  have h0 : Reachable { State.reset with
      cfg := ⟨15, 4⟩
      inputs := [.host (.write 0x030#18 101#64), .host (.write 0x038#18 103#64), .host (.write 0x028#18 6#64),
        .sequencer] } := .start ⟨⟨15, 4⟩, _, rfl⟩
  exact ⟨_, .next (.next (.next (.next h0 rfl) rfl) rfl) rfl, by decide +kernel⟩

theorem test_witness_KeyRegistersChangeOnlyByKeygen :
    (∃ s t, step s = .next t ∧ ResetNext s ∧ t.keys ≠ s.keys) ∧
    (∃ s t, step s = .next t ∧ Runs s .keygenForced ∧ t.keys ≠ s.keys) ∧
    Instr.encrypt ≠ .keygenRand ∧ Instr.encrypt ≠ .keygenForced :=
  ⟨⟨(keyed 2#64).upNext .hardReset, _, rfl, Or.inl rfl, by decide⟩,
   ⟨issued (operands 2#64 3#64 0#64) .keygenForced, _, rfl, ⟨Or.inl rfl, rfl, rfl⟩, by decide +kernel⟩,
   by decide, by decide⟩

/-- The three clauses of the cipher commands: no key, a length of MSG_MAX + 1, and lengths 2 and 0 with a valid key. -/
theorem test_witness_EncryptOutcome :
    block.status.keyValid = false ∧
    ((issued (keyed 17#64) .encrypt).status.keyValid = true ∧
      (issued (keyed 17#64) .encrypt).cfg.msgMax < (issued (keyed 17#64) .encrypt).latch.llen.toNat) ∧
    ((ciphering .encrypt).status.keyValid = true ∧ (ciphering .encrypt).latch.llen.toNat ≤ (ciphering .encrypt).cfg.msgMax ∧
      (∀ i, i < (ciphering .encrypt).latch.llen.toNat → (bufGet (ciphering .encrypt).mem.msg i).isSome) ∧
      (ciphering .encrypt).keys.e.toNat ≠ 0 ∧ (ciphering .encrypt).keys.n.toNat ≠ 0) ∧
    (issued (keyed 0#64) .encrypt).latch.llen.toNat = 0 := by decide

theorem test_witness_DecryptOutcome :
    block.status.keyValid = false ∧
    ((issued (keyed 17#64) .decrypt).status.keyValid = true ∧
      (issued (keyed 17#64) .decrypt).cfg.msgMax < (issued (keyed 17#64) .decrypt).latch.llen.toNat) ∧
    ((ciphering .decrypt).status.keyValid = true ∧ (ciphering .decrypt).latch.llen.toNat ≤ (ciphering .decrypt).cfg.msgMax ∧
      (∀ i, i < (ciphering .decrypt).latch.llen.toNat → (bufGet (ciphering .decrypt).mem.ct i).isSome) ∧
      (ciphering .decrypt).keys.d.toNat ≠ 0 ∧ (ciphering .decrypt).keys.n.toNat ≠ 0) := by decide

/-- The key, the message and the state in between (the encrypted one with the next command accepted). -/
theorem test_witness_RoundTripRecoversTheMessage :
    KeyInv (ciphering .encrypt).keys ∧ 10402 < (ciphering .encrypt).keys.n.toNat ∧
    (ciphering .encrypt).status.keyValid = true ∧
    (ciphering .encrypt).latch.llen.toNat ≤ (ciphering .encrypt).cfg.msgMax ∧
    (∀ i, i < (ciphering .encrypt).latch.llen.toNat → (bufGet (ciphering .encrypt).mem.msg i).isSome) ∧
    ∃ t t', exec .encrypt (ciphering .encrypt) = .next t ∧ t' = issued t .decrypt ∧ t'.keys = t.keys ∧
      t'.status.keyValid = true ∧ t'.cfg = t.cfg ∧ t'.mem.ct = t.mem.ct ∧
      t'.latch.llen = (ciphering .encrypt).latch.llen :=
  ⟨key101_keyInv, by decide, rfl, by decide, by decide, _, _, rfl, rfl, rfl, rfl, rfl, rfl, rfl⟩

theorem test_witness_CiphertextIsBelowTheModulus :
    KeyInv (ciphering .encrypt).keys ∧ (ciphering .encrypt).status.keyValid = true ∧
    (ciphering .encrypt).latch.llen.toNat ≤ (ciphering .encrypt).cfg.msgMax ∧
    ∀ i, i < (ciphering .encrypt).latch.llen.toNat → (bufGet (ciphering .encrypt).mem.msg i).isSome :=
  ⟨key101_keyInv, rfl, by decide, by decide⟩

/-- Two runs that share the key and entry 0 and differ in entry 1. -/
theorem test_witness_CipherEntriesAreIndependent :
    ∃ s s' t t' : State, s.keys = s'.keys ∧ 0 < s.latch.llen.toNat ∧ 0 < s'.latch.llen.toNat ∧
      t.status.errcode = .ok ∧ t'.status.errcode = .ok ∧ exec .encrypt s = .next t ∧ exec .encrypt s' = .next t' ∧
      bufGet s.mem.msg 0 = bufGet s'.mem.msg 0 ∧ bufGet s.mem.msg 1 ≠ bufGet s'.mem.msg 1 :=
  ⟨ciphering .encrypt, issued { keyed 2#64 with mem := ⟨[(0, 72#8), (1, 1#8)], [], []⟩ } .encrypt, _, _, by decide,
   by decide, by decide, rfl, rfl, rfl, rfl, by decide, by decide⟩

theorem test_witness_ErrorsLeaveResultsUnchanged :
    ∃ s t, s.seq = .run ∧ exec .modinv s = .next t ∧ t.seq = .idle ∧ t.status.errcode ≠ .ok :=
  ⟨issued (operands 5#64 0#64 0#64) .modinv, _, rfl, rfl, rfl, by decide⟩

/-- The three kinds of step: a `CMD` write (accepted, dropped), a reset, and any other. -/
theorem test_witness_OverrunFlagRule :
    (∃ t, step (block.upNext (.host (.write 0x028#18 2#64))) = .next t ∧
      CmdWriteNext (block.upNext (.host (.write 0x028#18 2#64))) 2#64) ∧
    (∃ t, step (gcdRunning.upNext (.host (.write 0x028#18 2#64))) = .next t ∧ t.status.ovr = true) ∧
    ResetNext (block.upNext .hardReset) ∧
    (∃ t, step gcdRunning = .next t) ∧ ¬ ResetNext gcdRunning ∧ ∀ w, ¬ CmdWriteNext gcdRunning w :=
  ⟨⟨_, rfl, rfl⟩, ⟨_, rfl, rfl⟩, Or.inl rfl, ⟨_, rfl⟩, not_resetNext_of_sequencerNext (Or.inl rfl),
   not_cmdWriteNext_of_sequencerNext (Or.inl rfl)⟩

theorem test_witness_LastCommandRule :
    CmdWriteNext (block.upNext (.host (.write 0x028#18 0x101#64))) 0x101#64 ∧ block.status.busy = false ∧
    ResetNext (block.upNext (.host (.write 0x010#18 2#64))) ∧
    CmdWriteNext (gcdRunning.upNext (.host (.write 0x028#18 5#64))) 5#64 ∧ gcdRunning.status.busy = true ∧
    ∃ t, step (gcdRunning.upNext (.host (.write 0x028#18 5#64))) = .next t ∧ t.cmd = 2#64 :=
  ⟨rfl, rfl, Or.inr ⟨2#64, rfl, rfl⟩, rfl, rfl, _, rfl, rfl⟩

theorem test_witness_IdleLatchesAreNeverObserved : block.status.busy = false ∧ block.seq = .idle := by decide

theorem test_witness_InvariantHoldsAtReset : Initial State.reset ∧ Initial block :=
  ⟨⟨Config.params, [], rfl⟩, ⟨⟨15, 4⟩, [], rfl⟩⟩

/-- A state with a valid key and a command in flight that meets the invariant, and its step. -/
theorem test_witness_InvariantKeptByEveryStep :
    Inv (ciphering .encrypt) ∧ ∃ t, step (ciphering .encrypt) = .next t ∧ t.status.done = true := by
  refine ⟨⟨by decide, by decide, by decide, by decide, by decide, by decide, by decide, fun _ => key101_keyInv,
    by decide, by decide, fun h => absurd rfl h⟩, _, rfl, rfl⟩

theorem test_witness_ReachableStatusIsConsistent : Reachable State.reset := .start ⟨Config.params, [], rfl⟩

/-- A command in flight of each kind: plain, a `KEYGEN_RAND` with both draws answered, the two cipher commands over written
entries, and a cipher command that reads none: no key, and a length of MSG_MAX + 1. -/
theorem test_witness_SequencerTurnEndsTheCommand :
    (gcdRunning.status.busy = true ∧ gcdRunning.seq = .run ∧ decode gcdRunning.latch.lw = .command .gcd) ∧
    (drawing [101#64, 103#64]).awaitsDraw = false ∧
    (∀ i, i < (ciphering .encrypt).latch.llen.toNat → (bufGet (ciphering .encrypt).mem.msg i).isSome) ∧
    (∀ i, i < (ciphering .decrypt).latch.llen.toNat → (bufGet (ciphering .decrypt).mem.ct i).isSome) ∧
    ((issued { block with msgLen := 2#64 } .encrypt).status.keyValid ≠ true ∧
      bufGet (issued { block with msgLen := 2#64 } .encrypt).mem.msg 0 = none) ∧
    ¬ (issued (keyed 17#64) .decrypt).latch.llen.toNat ≤ (issued (keyed 17#64) .decrypt).cfg.msgMax :=
  ⟨by decide, by decide +kernel, by decide, by decide, by decide, by decide⟩

/-- A write, a read and a branch on a buffer entry, each answering a next state of the block, and a label that a line carries. -/
theorem test_witness_HostStatementsMakeTheirTransactions :
    let s : State := { block with mem := ⟨[], [(0, 3#64)], []⟩ }
    (∃ b, step (s.upNext (.host (.write 0x20000#18 1#64))) = .next b) ∧
    (∃ b, step (s.upNext (.host (.read 0x20000#18))) = .next b ∧ b.busResp = some 3#64) ∧
    findLabel (.named "L") [⟨[.named "L"], .rd (.reg .id)⟩, plain (.bnz (.ct 0) 1#64 (.named "L"))] = some 0 :=
  ⟨⟨_, rfl⟩, ⟨_, rfl, rfl⟩, by decide⟩

/-- A program whose `wait` follows other lines, polled while busy and while idle. -/
theorem test_witness_WaitPollsTheBusyBit :
    (∀ l ∈ [plain (.wr (.reg .opa) 12#64), plain (cmdStmt .gcd)], Label.fresh 7 ∉ l.labels) ∧
    gcdRunning.status.busy = true ∧ block.status.busy = false := by decide

end Sys2Proof.Tests
end

section
/-! SUPPORT. Proofs of the statements about the state of the block (10_state.md): the host's accesses to registers and
buffers, the invariant, what one step does to each register, and what the steps do not read. -/

namespace Sys2Proof.Machine

/-! ## Host accesses to registers (10_state.md R20 to R37, 40_host_access.md R100 to R102) -/

section HostAccess

variable (s : State)

theorem step_read_reg (r : Reg) :
    step (s.upNext (.host (.read r.offset))) = .next { s with busResp := some (s.readReg r) } :=
  hostRead_of_locate (locate_regOffset s.cfg r)

theorem step_write_reg (v : Word) (r : Reg) :
    step (s.upNext (.host (.write r.offset v))) = .next (State.writeReg { s with busResp := none } v r) :=
  hostWrite_of_locate v (locate_regOffset s.cfg r)

theorem writeReg_ctrl_of_bit1_clear {v : Word} (h : v.getLsbD 1 = false) :
    s.writeReg v .ctrl = { s with irqEn := v.getLsbD 0 } := by
  simp only [State.writeReg, h, Bool.false_eq_true, if_false]

theorem writeReg_ctrl_of_bit1_set {v : Word} (h : v.getLsbD 1 = true) : s.writeReg v .ctrl = s.softReset := by
  simp [State.writeReg, h]

theorem writeReg_cmd_of_idle {s : State} {v : Word} (hb : s.status.busy = false) : s.writeReg v .cmd = s.accept v := by
  simp [State.writeReg, hb]

theorem writeReg_irqStatus (v : Word) :
    s.writeReg v .irqStatus = { s with donePend := if v.getLsbD 0 then false else s.donePend } := by
  simp only [State.writeReg]
  split_ifs <;> rfl

end HostAccess

/-- The registers in the order of R20. -/
def Reg.all : List Reg :=
  [.id, .cfg, .ctrl, .status, .irqStatus, .cmd, .opa, .opb, .opc, .res, .msgLen, .draws, .keyP, .keyQ, .keyN, .keyPhi,
    .keyE, .keyD]

/-- Settles O13: the table is that of the registers' offsets and read values. -/
theorem registerReadsAnswerTheRegister : Obligations.RegisterReadsAnswerTheRegister := by
  intro s ov hov
  rw [← bitWord_eq, ← bitWord_eq] at hov
  change ov ∈ Reg.all.map fun r => (r.offset, s.readReg r) at hov
  obtain ⟨r, -, rfl⟩ := List.mem_map.1 hov
  exact step_read_reg s r

/-- Settles O20, by the two cases of a `CTRL` write. -/
theorem controlRegisterWrites : Obligations.ControlRegisterWrites := by
  intro s v
  refine ⟨fun h => ?_, fun h => ⟨?_, rfl⟩, ?_, rfl⟩
  · exact (step_write_reg s v .ctrl).trans (congrArg _ (writeReg_ctrl_of_bit1_clear _ h))
  · exact (step_write_reg s v .ctrl).trans (congrArg _ (writeReg_ctrl_of_bit1_set _ h))
  · rw [← bitWord_eq]
    exact step_read_reg s .ctrl

/-- Settles O21, by the rule of an `IRQ_STATUS` write. -/
theorem interruptStatusIsWriteOneToClear : Obligations.InterruptStatusIsWriteOneToClear := by
  intro s v
  constructor
  · exact (step_write_reg s v .irqStatus).trans (congrArg _ (writeReg_irqStatus _ v))
  · rw [← bitWord_eq]
    exact step_read_reg s .irqStatus

/-! ## Register words made of fields (R22, R24) -/

theorem toNat_append_eq_add {m n : Nat} (x : BitVec m) (y : BitVec n) : (x ++ y).toNat = x.toNat * 2 ^ n + y.toNat := by
  rw [BitVec.toNat_append, ← Nat.shiftLeft_add_eq_or_of_lt y.isLt, Nat.shiftLeft_eq]

theorem toNat_ofBool_eq_bitNat (b : Bool) : (BitVec.ofBool b).toNat = bitNat b := by cases b <;> rfl

theorem statusWord_toNat (st : Status) :
    st.word.toNat = bitNat st.busy + 2 * bitNat st.done + 4 * bitNat st.err + 8 * bitNat st.keyValid +
      16 * bitNat st.ovr + 2 ^ 8 * st.errcode.bits.toNat + 2 ^ 16 * st.lastOp.toNat := by
  simp only [Status.word, toNat_append_eq_add, toNat_ofBool_eq_bitNat, BitVec.toNat_ofNat, Nat.zero_mod]
  omega

theorem statusErr_eq_true_iff (st : Status) : st.err = true ↔ st.errcode.bits ≠ 0#8 := by simp [Status.err]

/-- Settles O14: the fields are concatenated, and a write to `STATUS` is one to a read-only register. -/
theorem statusWordHasTheFields : Obligations.StatusWordHasTheFields :=
  ⟨fun st => ⟨statusWord_toNat st, statusErr_eq_true_iff st⟩, fun s v => step_write_reg s v .status⟩

theorem cfgWord_toNat (p : Params) : (cfgWord p).toNat = p.maxDraws * 2 ^ 16 + p.msgMax := by
  have hm := msgMax_le p
  have hd := maxDraws_le p
  simp only [cfgWord, toNat_append_eq_add, BitVec.toNat_ofNat, Nat.zero_mod]
  omega

/-! ## Host accesses to the buffers (R38 to R40, R48, R68) -/

section Buffers

variable {s : State} {i : Nat}

theorem step_read_target {tgt : Target} (h : locate s.cfg tgt.offset = .ok tgt) :
    step (s.upNext (.host (.read tgt.offset))) = s.readTarget tgt :=
  hostRead_of_locate h

theorem step_write_target (v : Word) {tgt : Target} (h : locate s.cfg tgt.offset = .ok tgt) :
    step (s.upNext (.host (.write tgt.offset v))) = .next (State.writeTarget { s with busResp := none } v tgt) :=
  hostWrite_of_locate v h

theorem inFlight_eq_false {c : Instr} (h : s.status.busy = false ∨ decode s.latch.lw ≠ .command c) :
    s.inFlight c = false := by
  rw [Bool.eq_false_iff, Ne, inFlight_eq_true_iff]
  rintro ⟨hb, hd⟩
  rcases h with h | h
  · simp [hb] at h
  · exact h hd

@[simp] theorem readStored_some (s : State) (buf : BufName) (i : Nat) (v : Word) :
    s.readStored buf i (some v) = .next { s with busResp := some v } := rfl

@[simp] theorem readStored_none (s : State) (buf : BufName) (i : Nat) :
    s.readStored buf i none = .fault (.unwrittenRead buf i) := rfl

/-- R100: a read of `MSG_BUF[i]` answers the stored byte, zero-extended. -/
theorem step_read_msg (hi : i < s.cfg.msgMax) :
    step (s.upNext (.host (.read (msgOffset i)))) =
      s.readStored .msg i ((bufGet s.mem.msg i).map fun b => b.setWidth 64) :=
  step_read_target (tgt := .msg i) (locate_offset s.cfg (.msg i) hi)

/-- R100, R68: a read of `CT_BUF[i]` answers the stored entry, unless `ENCRYPT` is in flight. -/
theorem step_read_ct (hi : i < s.cfg.msgMax) (hf : s.inFlight .encrypt = false) :
    step (s.upNext (.host (.read (ctOffset i)))) = s.readStored .ct i (bufGet s.mem.ct i) :=
  (step_read_target (tgt := .ct i) (locate_offset s.cfg (.ct i) hi)).trans (by simp [State.readTarget, hf])

/-- R100, R68: a read of `DEC_BUF[i]` answers the stored entry, unless `DECRYPT` is in flight. -/
theorem step_read_dec (hi : i < s.cfg.msgMax) (hf : s.inFlight .decrypt = false) :
    step (s.upNext (.host (.read (decOffset i)))) = s.readStored .dec i (bufGet s.mem.dec i) :=
  (step_read_target (tgt := .dec i) (locate_offset s.cfg (.dec i) hi)).trans (by simp [State.readTarget, hf])

theorem step_read_msg_written {b : Byte} (hi : i < s.cfg.msgMax) (hb : bufGet s.mem.msg i = some b) :
    step (s.upNext (.host (.read (msgOffset i)))) = .next { s with busResp := some (b.setWidth 64) } := by
  simp only [step_read_msg hi, hb, Option.map_some, readStored_some]

theorem step_read_ct_written {c : Word} (hi : i < s.cfg.msgMax) (hf : s.inFlight .encrypt = false)
    (hc : bufGet s.mem.ct i = some c) :
    step (s.upNext (.host (.read (ctOffset i)))) = .next { s with busResp := some c } := by
  simp only [step_read_ct hi hf, hc, readStored_some]

theorem step_read_dec_written {m : Word} (hi : i < s.cfg.msgMax) (hf : s.inFlight .decrypt = false)
    (hm : bufGet s.mem.dec i = some m) :
    step (s.upNext (.host (.read (decOffset i)))) = .next { s with busResp := some m } := by
  simp only [step_read_dec hi hf, hm, readStored_some]

/-- R38, R101: a write to `MSG_BUF[i]` of an idle block stores `v[7:0]`. -/
theorem step_write_msg_idle (v : Word) (hb : s.status.busy = false) (hi : i < s.cfg.msgMax) :
    step (s.upNext (.host (.write (msgOffset i) v))) =
      .next (State.storeMsg { s with busResp := none } i (v.setWidth 8)) := by
  refine (step_write_target v (tgt := .msg i) (locate_offset s.cfg (.msg i) hi)).trans ?_
  simp [State.writeTarget, hb]

/-- R39, R101: a write to `CT_BUF[i]` of an idle block stores `v`. -/
theorem step_write_ct_idle (v : Word) (hb : s.status.busy = false) (hi : i < s.cfg.msgMax) :
    step (s.upNext (.host (.write (ctOffset i) v))) = .next (State.storeCt { s with busResp := none } i v) := by
  refine (step_write_target v (tgt := .ct i) (locate_offset s.cfg (.ct i) hi)).trans ?_
  simp [State.writeTarget, hb]

end Buffers

/-- Settles O23, by the store rules and the read rules of the two buffers. -/
theorem bufferWriteThenRead : Obligations.BufferWriteThenRead := by
  intro s i v hb hi
  rw [← BitVec.setWidth_eq_extractLsb' (by norm_num)]
  constructor
  · refine ⟨_, step_write_msg_idle v hb hi, bufGet_bufSet_same _ _ _, fun j hj => bufGet_bufSet_other _ _ _ _ hj, rfl, ?_⟩
    exact step_read_msg_written hi (bufGet_bufSet_same _ _ _)
  · refine ⟨_, step_write_ct_idle v hb hi, bufGet_bufSet_same _ _ _, fun j hj => bufGet_bufSet_other _ _ _ _ hj, rfl, ?_⟩
    exact step_read_ct_written hi (inFlight_eq_false (.inl hb)) (bufGet_bufSet_same _ _ _)

/-! ## The cipher loops entry by entry (R190 to R192, R48) -/

section CipherEntries

variable {i k exp n : Nat}

theorem encryptLoop_ok_entry {msg : List Host.Cell} {ct ct' : List (Nat × Word)}
    (hrun : encryptLoop msg exp n k 0 ct = .ok ct') (hi : i < k) :
    ∃ b, bufGet msg i = some b ∧ bufGet ct' i = some (wordOf (modExpValue b.toNat exp n)) := by
  obtain ⟨out, hrun', hsome, hget, -, -⟩ | ⟨j, -, -, -, -, hfault⟩ := encryptLoop_cases msg exp n k 0 ct
  · cases hrun.symm.trans hrun'
    obtain ⟨b, hb⟩ := Option.isSome_iff_exists.1 (hsome i (Nat.zero_le _) (by omega))
    exact ⟨b, hb, by rw [hget, if_pos (by omega), hb, Option.map_some]⟩
  · cases hrun.symm.trans hfault

theorem decryptLoop_ok_entry {ct out out' : List (Nat × Word)} (hrun : decryptLoop ct exp n k 0 out = .ok out')
    (hi : i < k) : ∃ c, bufGet ct i = some c ∧ bufGet out' i = some (wordOf (modExpValue c.toNat exp n)) := by
  obtain ⟨res, hrun', hsome, hget, -, -⟩ | ⟨j, -, -, -, -, hfault⟩ := decryptLoop_cases ct exp n k 0 out
  · cases hrun.symm.trans hrun'
    obtain ⟨c, hc⟩ := Option.isSome_iff_exists.1 (hsome i (Nat.zero_le _) (by omega))
    exact ⟨c, hc, by rw [hget, if_pos (by omega), hc, Option.map_some]⟩
  · cases hrun.symm.trans hfault

/-- Two indexes that are each the first unwritten one of a buffer are the same. -/
theorem first_unwritten_unique {α : Type} {b : List (Nat × α)} {i j : Nat} (hi : bufGet b i = none)
    (hbi : ∀ l, l < i → (bufGet b l).isSome) (hj : bufGet b j = none) (hbj : ∀ l, l < j → (bufGet b l).isSome) :
    j = i := by
  rcases Nat.lt_trichotomy j i with h | h | h
  · simpa [hj] using hbi j h
  · exact h
  · simpa [hi] using hbj i h

theorem encryptLoop_first_unwritten {msg : List Host.Cell} (ct : List (Nat × Word)) (hi : i < k)
    (hn : bufGet msg i = none) (hb : ∀ j, j < i → (bufGet msg j).isSome) :
    encryptLoop msg exp n k 0 ct = .error (.unwrittenRead .msg i) := by
  obtain ⟨-, -, hsome, -⟩ | ⟨j, -, -, hj, hbj, hfault⟩ := encryptLoop_cases msg exp n k 0 ct
  · simpa [hn] using hsome i (Nat.zero_le _) (by omega)
  · rw [hfault, first_unwritten_unique hn hb hj fun l => hbj l (Nat.zero_le _)]

theorem decryptLoop_first_unwritten {ct : List (Nat × Word)} (out : List (Nat × Word)) (hi : i < k)
    (hn : bufGet ct i = none) (hb : ∀ j, j < i → (bufGet ct j).isSome) :
    decryptLoop ct exp n k 0 out = .error (.unwrittenRead .ct i) := by
  obtain ⟨-, -, hsome, -⟩ | ⟨j, -, -, hj, hbj, hfault⟩ := decryptLoop_cases ct exp n k 0 out
  · simpa [hn] using hsome i (Nat.zero_le _) (by omega)
  · rw [hfault, first_unwritten_unique hn hb hj fun l => hbj l (Nat.zero_le _)]

end CipherEntries

section CipherCommands

variable {s t : State}

/-- `ENCRYPT` ends without an error only after its whole loop has run on an accepted length (R191). -/
theorem exec_encrypt_ok (hx : exec .encrypt s = .next t) (hok : t.status.errcode = .ok) :
    s.opndLen ≤ s.cfg.msgMax ∧ ∃ ct,
      encryptLoop s.mem.msg s.opndKeyE s.opndKeyN s.opndLen 0 s.mem.ct = .ok ct ∧
      t = State.complete { s with mem := { s.mem with ct := ct } } .ok := by
  cases exec_next hx with
  | error code _ hc => exact absurd hok hc
  | encrypted ct _ _ hl hrun => exact ⟨hl, ct, hrun, rfl⟩
  | waits hi | plain hi | result _ hi | keyOk _ _ hi | keyBad _ _ _ hi | decrypted _ hi => simp at hi

/-- `DECRYPT` ends without an error only after its whole loop has run on an accepted length (R192). -/
theorem exec_decrypt_ok (hx : exec .decrypt s = .next t) (hok : t.status.errcode = .ok) :
    s.opndLen ≤ s.cfg.msgMax ∧ ∃ out,
      decryptLoop s.mem.ct s.opndKeyD s.opndKeyN s.opndLen 0 s.mem.dec = .ok out ∧
      t = State.complete { s with mem := { s.mem with dec := out } } .ok := by
  cases exec_next hx with
  | error code _ hc => exact absurd hok hc
  | decrypted out _ _ hl hrun => exact ⟨hl, out, hrun, rfl⟩
  | waits hi | plain hi | result _ hi | keyOk _ _ hi | keyBad _ _ _ hi | encrypted _ hi => simp at hi

/-- The buffers after the loop of `ENCRYPT`, or the fault it stops with. -/
def State.encryptRun (s : State) : Except Fault Memory :=
  (encryptLoop s.mem.msg s.opndKeyE s.opndKeyN s.opndLen 0 s.mem.ct).map fun ct => { s.mem with ct := ct }

/-- The buffers after the loop of `DECRYPT`, or the fault it stops with. -/
def State.decryptRun (s : State) : Except Fault Memory :=
  (decryptLoop s.mem.ct s.opndKeyD s.opndKeyN s.opndLen 0 s.mem.dec).map fun out => { s.mem with dec := out }

/-- The checks the two cipher commands share (R193), then the end with the buffers of the loop `run`. -/
def State.cipherEnd (s : State) (run : Except Fault Memory) : Host.Outcome State Fault Refusal :=
  if s.status.keyValid = false then .next (s.raiseErr .noKey)
  else if s.cfg.msgMax < s.opndLen then .next (s.raiseErr .msgLen)
  else
    match run with
    | .error f => .fault f
    | .ok m    => .next (State.complete { s with mem := m } .ok)

theorem exec_encrypt_eq (s : State) : exec .encrypt s = s.cipherEnd s.encryptRun := by
  simp only [exec, execEncrypt, State.cipherEnd, State.encryptRun]
  cases encryptLoop s.mem.msg s.opndKeyE s.opndKeyN s.opndLen 0 s.mem.ct <;> rfl

theorem exec_decrypt_eq (s : State) : exec .decrypt s = s.cipherEnd s.decryptRun := by
  simp only [exec, execDecrypt, State.cipherEnd, State.decryptRun]
  cases decryptLoop s.mem.ct s.opndKeyD s.opndKeyN s.opndLen 0 s.mem.dec <;> rfl

theorem cipherEnd_of_error {f : Fault} (hk : s.status.keyValid = true) (hl : s.opndLen ≤ s.cfg.msgMax) :
    s.cipherEnd (.error f) = .fault f := by
  simp [State.cipherEnd, hk, not_lt.2 hl]

end CipherCommands

/-- Settles O24: a completed cipher command leaves an idle block, whose reads answer the entries its loop stored. -/
theorem storedEntriesReadBack : Obligations.StoredEntriesReadBack := by
  refine ⟨fun s i hb hi => ⟨fun b hget => ?_, fun c hget => ?_, fun m hget => ?_⟩,
    fun s t i hi hok => ⟨fun hx => ?_, fun hx => ?_⟩⟩
  · exact step_read_msg_written hi hget
  · exact step_read_ct_written hi (inFlight_eq_false (.inl hb)) hget
  · exact step_read_dec_written hi (inFlight_eq_false (.inl hb)) hget
  · obtain ⟨hl, ct, hrun, rfl⟩ := exec_encrypt_ok hx hok
    obtain ⟨b, hin, hout⟩ := encryptLoop_ok_entry hrun hi
    exact ⟨b, _, hin, rfl, step_read_ct_written (hi.trans_le hl) (inFlight_eq_false (.inl rfl)) hout⟩
  · obtain ⟨hl, out, hrun, rfl⟩ := exec_decrypt_ok hx hok
    obtain ⟨c, hin, hout⟩ := decryptLoop_ok_entry hrun hi
    exact ⟨c, _, hin, rfl, step_read_dec_written (hi.trans_le hl) (inFlight_eq_false (.inl rfl)) hout⟩

/-- Settles O26: a host read finds no entry, and a cipher loop stops at its first unwritten one. -/
theorem unwrittenReadsFault : Obligations.UnwrittenReadsFault := by
  refine fun s i hi => ⟨fun hget => ?_, fun hget hf => ?_, fun hget hf => ?_, fun hk hl hlen =>
    ⟨fun hget hb => ?_, fun hget hb => ?_⟩⟩
  · exact (step_read_msg hi).trans (by rw [hget]; rfl)
  · exact (step_read_ct hi (inFlight_eq_false hf)).trans (by rw [hget]; rfl)
  · exact (step_read_dec hi (inFlight_eq_false hf)).trans (by rw [hget]; rfl)
  · rw [exec_encrypt_eq, State.encryptRun, encryptLoop_first_unwritten _ hlen hget hb]
    exact cipherEnd_of_error hk hl
  · rw [exec_decrypt_eq, State.decryptRun, decryptLoop_first_unwritten _ hlen hget hb]
    exact cipherEnd_of_error hk hl

/-! ## The invariant of the block (10_state.md) -/

section Invariant

variable {s : State}

/-- What the invariant does not speak of can take any value. -/
theorem Inv.of_unread_fields (h : Inv s) {irqEn donePend : Bool} {opa opb opc res msgLen : Word}
    {busResp : Option Word} {freeCtr : Nat} {inputs : List Event} :
    Inv { s with
      irqEn := irqEn, donePend := donePend, opa := opa, opb := opb, opc := opc, res := res, msgLen := msgLen,
      busResp := busResp, freeCtr := freeCtr, inputs := inputs } :=
  ⟨h.memWf, h.memRange, h.seqBusy, h.busyDone, h.busyOk, h.lastOp, h.latched, h.key, h.drawsMax, h.answers, h.drawing⟩

theorem Inv.setMem (h : Inv s) {m : Memory} (hwf : m.wf) (hr : m.inRange s.cfg.msgMax) : Inv { s with mem := m } :=
  ⟨hwf, hr, h.seqBusy, h.busyDone, h.busyOk, h.lastOp, h.latched, h.key, h.drawsMax, h.answers, h.drawing⟩

theorem wordOf_draws_le {p : Params} {n : Nat} (hn : n ≤ p.maxDraws) : (wordOf n).toNat ≤ p.maxDraws := by
  have := maxDraws_le p
  rwa [wordOf_toNat (by omega)]

theorem Inv.setKey (h : Inv s) {k : KeyRegs} {valid : Bool} {drawn : Nat} (hk : valid = true → KeyInv k)
    (hd : drawn ≤ s.cfg.maxDraws) :
    Inv { s with keys := k, draws := wordOf drawn, status := { s.status with keyValid := valid } } :=
  ⟨h.memWf, h.memRange, h.seqBusy, h.busyDone, h.busyOk, h.lastOp, h.latched, hk, wordOf_draws_le hd, h.answers,
    h.drawing⟩

/-- A completion (R104) clears `BUSY` and the draws, so every clause about a command in flight becomes empty. -/
theorem Inv.complete (h : Inv s) (code : ErrCode) : Inv (s.complete code) where
  memWf := h.memWf
  memRange := h.memRange
  seqBusy := by simp
  busyDone := by simp
  busyOk := by simp
  lastOp := h.lastOp
  latched := by simp
  key := h.key
  drawsMax := h.drawsMax
  answers := Nat.zero_le _
  drawing := by simp

/-- An acceptance (R103) writes `CMD`, `LAST_OP` and the latches from the same word. -/
theorem Inv.accept (h : Inv s) (w : Word) : Inv (s.accept w) where
  memWf := h.memWf
  memRange := h.memRange
  seqBusy := by simp
  busyDone := by simp
  busyOk := by simp
  lastOp := rfl
  latched := fun _ => ⟨rfl, rfl⟩
  key := h.key
  drawsMax := h.drawsMax
  answers := Nat.zero_le _
  drawing := by simp

theorem Inv.overrun (h : Inv s) : Inv s.overrun :=
  ⟨h.memWf, h.memRange, h.seqBusy, h.busyDone, h.busyOk, h.lastOp, h.latched, h.key, h.drawsMax, h.answers, h.drawing⟩

/-- Registers as both resets leave them meet the invariant over any canonical buffers (R230, R231). -/
theorem inv_resetRegisters {m : Memory} (hwf : m.wf) (hr : m.inRange s.cfg.msgMax) : Inv (s.resetRegisters m) where
  memWf := hwf
  memRange := hr
  seqBusy := by simp [Status.reset]
  busyDone := by simp [Status.reset]
  busyOk := by simp [Status.reset]
  lastOp := rfl
  latched := by simp [Status.reset]
  key := by simp [Status.reset]
  drawsMax := Nat.zero_le _
  answers := Nat.zero_le _
  drawing := by simp

theorem memory_empty_wf : Memory.empty.wf := ⟨.nil, .nil, .nil⟩

theorem memory_empty_inRange (cap : Nat) : Memory.empty.inRange cap := ⟨nofun, nofun, nofun⟩

theorem inv_hardReset (s : State) : Inv s.hardReset := inv_resetRegisters memory_empty_wf (memory_empty_inRange _)

theorem Inv.softReset (h : Inv s) : Inv s.softReset := by
  obtain ⟨hm, hc, hd⟩ := h.memWf
  obtain ⟨rm, rc, rd⟩ := h.memRange
  unfold State.softReset State.softResetMemory
  split_ifs
  · exact inv_resetRegisters ⟨hm, bufSorted_bufForget _ _ hc, hd⟩ ⟨rm, bufBelow_bufForget _ _ _ rc, rd⟩
  · exact inv_resetRegisters ⟨hm, hc, bufSorted_bufForget _ _ hd⟩ ⟨rm, rc, bufBelow_bufForget _ _ _ rd⟩
  · exact inv_resetRegisters h.memWf h.memRange

/-- An answer is received only by a `KEYGEN_RAND` in flight whose draw loops wait, and these wait only below the bound. -/
theorem Inv.rngAnswer (h : Inv s) (v : Word) : Inv (s.rngAnswer v) := by
  unfold State.rngAnswer
  split_ifs with ha
  · obtain ⟨hfly, hwait⟩ : s.inFlight .keygenRand = true ∧ s.drawResult = .waiting := by
      simpa [State.awaitsDraw] using ha
    have hroom : 0 + s.rngAnswers.length < s.cfg.maxDraws := drawLoop_waiting_room _ _ 0 0 (Nat.zero_le _) hwait
    refine ⟨h.memWf, h.memRange, h.seqBusy, h.busyDone, h.busyOk, h.lastOp, h.latched, h.key, h.drawsMax, ?_,
      fun _ => hfly⟩
    simp only [List.length_append, List.length_singleton]
    omega
  · exact h

theorem Inv.encrypted (h : Inv s) {ct : List (Nat × Word)} (hl : s.opndLen ≤ s.cfg.msgMax)
    (hrun : encryptLoop s.mem.msg s.opndKeyE s.opndKeyN s.opndLen 0 s.mem.ct = .ok ct) :
    Inv { s with mem := { s.mem with ct := ct } } := by
  obtain ⟨hm, hc, hd⟩ := h.memWf
  obtain ⟨rm, rc, rd⟩ := h.memRange
  obtain ⟨ct', hrun', -, -, hsorted, hbelow⟩ | ⟨j, -, -, -, -, hfault⟩ :=
    encryptLoop_cases s.mem.msg s.opndKeyE s.opndKeyN s.opndLen 0 s.mem.ct
  · cases hrun.symm.trans hrun'
    exact h.setMem ⟨hm, hsorted hc, hd⟩ ⟨rm, hbelow _ (by omega) rc, rd⟩
  · cases hrun.symm.trans hfault

theorem Inv.decrypted (h : Inv s) {out : List (Nat × Word)} (hl : s.opndLen ≤ s.cfg.msgMax)
    (hrun : decryptLoop s.mem.ct s.opndKeyD s.opndKeyN s.opndLen 0 s.mem.dec = .ok out) :
    Inv { s with mem := { s.mem with dec := out } } := by
  obtain ⟨hm, hc, hd⟩ := h.memWf
  obtain ⟨rm, rc, rd⟩ := h.memRange
  obtain ⟨out', hrun', -, -, hsorted, hbelow⟩ | ⟨j, -, -, -, -, hfault⟩ :=
    decryptLoop_cases s.mem.ct s.opndKeyD s.opndKeyN s.opndLen 0 s.mem.dec
  · cases hrun.symm.trans hrun'
    exact h.setMem ⟨hm, hc, hsorted hd⟩ ⟨rm, rc, hbelow _ (by omega) rd⟩
  · cases hrun.symm.trans hfault

theorem Inv.execNext (h : Inv s) {i : Instr} {t : State} (hx : ExecNext i s t) : Inv t := by
  cases hx with
  | waits => exact h
  | plain => exact h.complete _
  | error code => exact h.complete code
  | result v => exact h.of_unread_fields.complete .ok
  | keyOk drawn k _ hk hd => exact (h.setKey (fun _ => hk) hd).complete .ok
  | keyBad code drawn k _ _ hd => exact (h.setKey (valid := false) (by simp) hd).complete code
  | encrypted ct _ _ hl hrun => exact (h.encrypted hl hrun).complete .ok
  | decrypted out _ _ hl hrun => exact (h.decrypted hl hrun).complete .ok

theorem Inv.writeReg (h : Inv s) (v : Word) {r : Reg} {t : State} (hw : WriteRegNext s v r t) : Inv t := by
  cases hw with
  | softReset => exact h.softReset
  | irqEnable => exact h.of_unread_fields
  | acknowledge => exact h.of_unread_fields
  | overrun => exact h.overrun
  | accept => exact h.accept v
  | opa => exact h.of_unread_fields
  | opb => exact h.of_unread_fields
  | opc => exact h.of_unread_fields
  | msgLen => exact h.of_unread_fields
  | ignored => exact h

/-- A write to a mapped buffer entry stays below MSG_MAX (R63). -/
theorem Inv.writeTarget (h : Inv s) {off : Offset} {v : Word} {tgt : Target} {t : State}
    (hl : locate s.cfg off = .ok tgt) (hw : WriteTargetNext s v tgt t) : Inv t := by
  obtain ⟨hm, hc, hd⟩ := h.memWf
  obtain ⟨rm, rc, rd⟩ := h.memRange
  have hi := index_lt_of_locate hl
  cases hw with
  | reg r _ hw => exact h.writeReg v hw
  | msg i => exact h.setMem ⟨bufSorted_bufSet _ _ _ hm, hc, hd⟩ ⟨bufBelow_bufSet _ _ _ _ rm hi, rc, rd⟩
  | ct i => exact h.setMem ⟨hm, bufSorted_bufSet _ _ _ hc, hd⟩ ⟨rm, bufBelow_bufSet _ _ _ _ rc hi, rd⟩
  | dropped => exact h

theorem Inv.stepNext {u t : State} (hu : Inv u) (hx : StepNext s u t) : Inv t := by
  cases hx with
  | idle => exact hu
  | command i t _ _ _ hx => exact hu.execNext hx
  | illegal => exact hu.complete .badCmd
  | read => exact hu.of_unread_fields
  | readFree => exact hu.of_unread_fields
  | write v off tgt _ hl =>
    have hu' : Inv { u with busResp := none } := hu.of_unread_fields
    exact hu'.writeTarget hl (writeTarget_next _ v tgt)
  | answer v => exact hu.rngAnswer v
  | hardReset => exact inv_hardReset u

end Invariant

/-- Settles O53, from what each kind of step leaves (`StepNext`). -/
theorem invariantKeptByEveryStep : Obligations.InvariantKeptByEveryStep :=
  fun _ _ h hs => Inv.stepNext h.of_unread_fields (step_next hs)

/-- The state after reset meets the invariant, for any parameters and any coming events. -/
theorem inv_of_initial {s : State} (h : Initial s) : Inv s := by
  obtain ⟨p, evs, rfl⟩ := h
  have hr : Inv (State.resetRegisters { State.reset with cfg := p } Memory.empty) :=
    inv_resetRegisters memory_empty_wf (memory_empty_inRange _)
  exact ⟨hr.memWf, hr.memRange, hr.seqBusy, hr.busyDone, hr.busyOk, hr.lastOp, nofun, hr.key,
    hr.drawsMax, hr.answers, nofun⟩

/-- The invariant holds at the start of every run and every step keeps it. -/
theorem inv_of_reachable {s : State} (h : Reachable s) : Inv s := by
  induction h with
  | start h0 => exact inv_of_initial h0
  | next _ hs ih => exact invariantKeptByEveryStep _ _ ih hs

/-- Settles O54, by the invariant of every reachable state. -/
theorem reachableKeysSatisfyTheKeyInvariant : Obligations.ReachableKeysSatisfyTheKeyInvariant := by
  intro s hr hv
  obtain ⟨hp, hq, hne, hn, hlarge, hphi, hco, ⟨he1, he2⟩, hinv, hd⟩ := (inv_of_reachable hr).key hv
  exact ⟨hp, hq, fun e => hne (congrArg BitVec.toNat e), hn, hlarge, hphi, hco, he1, he2, hinv, hd⟩

/-- Settles O55, by the invariant of every reachable state. -/
theorem reachableStatusIsConsistent : Obligations.ReachableStatusIsConsistent :=
  fun _ hr => ⟨(inv_of_reachable hr).seqBusy, (inv_of_reachable hr).busyDone⟩

/-! ## What one step does to the registers (R28 to R37, R43) -/

/-- The registers that only acceptance, completion and reset write hold what they held. -/
structure RegsKept (s t : State) : Prop where
  cfg    : t.cfg = s.cfg
  status : t.status = s.status
  cmd    : t.cmd = s.cmd
  res    : t.res = s.res
  draws  : t.draws = s.draws
  keys   : t.keys = s.keys
  seq    : t.seq = s.seq

/-- What a step does to those registers: one case for each kind of step, `u` being the state the step acts on. -/
inductive StepEffect (s : State) : State → Prop
  | quiet (t : State) (hk : RegsKept s t) (hr : ¬ ResetNext s) (hc : ∀ w, ¬ CmdWriteNext s w) : StepEffect s t
  | accepted (u : State) (w : Word) (hu : RegsKept s u) (hw : CmdWriteNext s w) (hb : s.status.busy = false) :
      StepEffect s (u.accept w)
  | dropped (u : State) (w : Word) (hu : RegsKept s u) (hw : CmdWriteNext s w) (hb : s.status.busy = true) :
      StepEffect s u.overrun
  | reset (u : State) (m : Memory) (hu : RegsKept s u) (hr : ResetNext s) : StepEffect s (u.resetRegisters m)
  | ended (u t : State) (i : Instr) (hu : RegsKept s u) (hi : Runs s i) (hx : ExecNext i u t) (ht : t.seq = .idle) :
      StepEffect s t
  | illegal (u : State) (why : IllegalWord) (hu : RegsKept s u) (he : SequencerNext s)
      (hd : decode s.latch.lw = .illegal why) : StepEffect s (u.raiseErr .badCmd)

section Effect

variable {s u t : State}

theorem RegsKept.of_unread_fields (h : RegsKept s u) {irqEn donePend : Bool} {opa opb opc msgLen : Word} {mem : Memory}
    {latch : Latches} {rngAnswers : List Word} {busResp : Option Word} {freeCtr : Nat} {inputs : List Event} :
    RegsKept s { u with
      irqEn := irqEn, donePend := donePend, opa := opa, opb := opb, opc := opc, msgLen := msgLen, mem := mem,
      latch := latch, rngAnswers := rngAnswers, busResp := busResp, freeCtr := freeCtr, inputs := inputs } :=
  ⟨h.cfg, h.status, h.cmd, h.res, h.draws, h.keys, h.seq⟩

theorem RegsKept.rngAnswer (h : RegsKept s u) (v : Word) : RegsKept s (u.rngAnswer v) := by
  unfold State.rngAnswer
  split_ifs
  · exact h.of_unread_fields
  · exact h

/-! ### Which step comes next -/

theorem not_resetNext_of_cmdWriteNext {w : Word} (h : CmdWriteNext s w) : ¬ ResetNext s := by
  unfold CmdWriteNext at h
  rintro (h' | ⟨v, -, h'⟩) <;> simp [h] at h'

theorem not_resetNext_of_write {off : Offset} {v : Word} (he : s.inputs.head? = some (.host (.write off v)))
    (h : off ≠ Reg.ctrl.offset ∨ v.getLsbD 1 = false) : ¬ ResetNext s := by
  rintro (h' | ⟨v', hv, h'⟩) <;> cases he.symm.trans h'
  exact h.elim (fun ho => ho rfl) fun hv' => Bool.false_ne_true (hv'.symm.trans hv)

theorem not_cmdWriteNext_of_write {off : Offset} {v : Word} (he : s.inputs.head? = some (.host (.write off v)))
    (h : off ≠ Reg.cmd.offset) (w : Word) : ¬ CmdWriteNext s w := by
  intro h'
  cases he.symm.trans h'
  exact h rfl

theorem cmdWriteNext_unique {w w' : Word} (h : CmdWriteNext s w) (h' : CmdWriteNext s w') : w = w' := by
  cases h.symm.trans h'
  rfl

theorem not_runs_of_cmdWriteNext {w : Word} {i : Instr} (h : CmdWriteNext s w) : ¬ Runs s i :=
  not_runs_of_head h (by simp)

theorem runs_unique {i j : Instr} (h : Runs s i) (h' : Runs s j) : i = j := by
  cases h.2.2.symm.trans h'.2.2
  rfl

theorem regOffset_injective {r r' : Reg} (h : r.offset = r'.offset) : r = r' := by
  have hl := locate_regOffset Config.params r
  rw [h, locate_regOffset] at hl
  cases hl
  rfl

/-- A mapped offset that is no register's differs from every register's. -/
theorem ne_regOffset_of_locate {p : Params} {off : Offset} {tgt : Target} (hl : locate p off = .ok tgt)
    (h : ∀ r, tgt ≠ .reg r) (r : Reg) : off ≠ r.offset := by
  rintro rfl
  cases hl.symm.trans (locate_regOffset p r)
  exact h r rfl

/-! ### The effect of each step -/

theorem stepEffect_of_quiet_write {off : Offset} {v : Word} (hk : RegsKept s t)
    (he : s.inputs.head? = some (.host (.write off v))) (hctrl : off ≠ Reg.ctrl.offset ∨ v.getLsbD 1 = false)
    (hcmd : off ≠ Reg.cmd.offset) : StepEffect s t :=
  .quiet t hk (not_resetNext_of_write he hctrl) (not_cmdWriteNext_of_write he hcmd)

theorem stepEffect_of_writeReg {r : Reg} {v : Word} (hu : RegsKept s u)
    (he : s.inputs.head? = some (.host (.write r.offset v))) (hw : WriteRegNext u v r t) : StepEffect s t := by
  cases hw with
  | softReset hv => exact .reset u _ hu (.inr ⟨v, hv, he⟩)
  | irqEnable hv => exact stepEffect_of_quiet_write hu.of_unread_fields he (.inr hv) (by decide)
  | acknowledge => exact stepEffect_of_quiet_write hu.of_unread_fields he (.inl (by decide)) (by decide)
  | overrun hb => exact .dropped u v hu he (hu.status ▸ hb)
  | accept hb => exact .accepted u v hu he (hu.status ▸ hb)
  | opa | opb | opc | msgLen =>
    exact stepEffect_of_quiet_write hu.of_unread_fields he (.inl (by decide)) (by decide)
  | ignored _ hctrl hcmd =>
    refine stepEffect_of_quiet_write hu he (.inl fun h => hctrl ?_) fun h => hcmd ?_
    · exact regOffset_injective h
    · exact regOffset_injective h

theorem stepEffect_of_writeTarget {off : Offset} {v : Word} {tgt : Target} (hu : RegsKept s u)
    (he : s.inputs.head? = some (.host (.write off v))) (hl : locate u.cfg off = .ok tgt)
    (hw : WriteTargetNext u v tgt t) : StepEffect s t := by
  have hquiet (h : ∀ r, tgt ≠ .reg r) (hk : RegsKept s t) : StepEffect s t :=
    stepEffect_of_quiet_write hk he (.inl (ne_regOffset_of_locate hl h _)) (ne_regOffset_of_locate hl h _)
  cases hw with
  | reg r _ hr =>
    obtain rfl := offset_of_locate_reg hl
    exact stepEffect_of_writeReg hu he hr
  | msg => exact hquiet (by simp) hu.of_unread_fields
  | ct => exact hquiet (by simp) hu.of_unread_fields
  | dropped _ h => exact hquiet h hu

theorem execNext_eq_or_idle {i : Instr} (h : ExecNext i s t) : t = s ∨ t.seq = .idle := by
  cases h with
  | waits => exact .inl rfl
  | _ => exact .inr rfl

theorem stepEffect_of_stepNext (hu : RegsKept s u) (hl : u.latch = s.latch) (h : StepNext s u t) :
    StepEffect s t := by
  cases h with
  | idle he => exact .quiet _ hu (not_resetNext_of_sequencerNext he) (not_cmdWriteNext_of_sequencerNext he)
  | command i _ he hs hd hx =>
    rcases execNext_eq_or_idle hx with rfl | ht
    · exact .quiet _ hu (not_resetNext_of_sequencerNext he) (not_cmdWriteNext_of_sequencerNext he)
    · exact .ended u t i hu ⟨he, hu.seq ▸ hs, hl ▸ hd⟩ hx ht
  | illegal why he _ hd => exact .illegal u why hu he (hl ▸ hd)
  | read v off he => exact .quiet _ hu.of_unread_fields (by simp [ResetNext, he]) (by simp [CmdWriteNext, he])
  | readFree off he => exact .quiet _ hu.of_unread_fields (by simp [ResetNext, he]) (by simp [CmdWriteNext, he])
  | write v off tgt he hloc =>
    have hu' : RegsKept s { u with busResp := none } := hu.of_unread_fields
    exact stepEffect_of_writeTarget hu' he hloc (writeTarget_next _ v tgt)
  | answer v he => exact .quiet _ (hu.rngAnswer v) (by simp [ResetNext, he]) (by simp [CmdWriteNext, he])
  | hardReset he => exact .reset u _ hu (.inl he)

end Effect

/-- Every step is of one of the kinds of `StepEffect`. -/
theorem step_effect {s t : State} (h : step s = .next t) : StepEffect s t :=
  stepEffect_of_stepNext (u := { s with inputs := s.inputs.tail }) ⟨rfl, rfl, rfl, rfl, rfl, rfl, rfl⟩ rfl (step_next h)

/-! ## What a command that answers a next state writes -/

section Commands

variable {i : Instr} {s t : State}

/-- No command writes the host's registers, the latches, `OVR` or `LAST_OP` (R29, R31, R33, R34, R41). -/
theorem execNext_hostSideKept (h : ExecNext i s t) :
    HostSideKept s t ∧ t.status.ovr = s.status.ovr ∧ t.status.lastOp = s.status.lastOp := by
  cases h <;> exact ⟨⟨rfl, rfl, rfl, rfl, rfl, rfl, rfl, rfl⟩, rfl, rfl⟩

/-- R35: only a success of an arithmetic command writes `RES`. -/
theorem execNext_res (h : ExecNext i s t) :
    t.res = s.res ∨ (t.status.errcode = .ok ∧ t.status.done = true ∧
      (i = .primeTest ∨ i = .gcd ∨ i = .modinv ∨ i = .modexp)) := by
  cases h with
  | result _ hi => exact .inr ⟨rfl, rfl, hi⟩
  | _ => exact .inl rfl

/-- R28, R37, R43: only a key generation writes the key registers, `DRAWS` and `KEY_VALID`. -/
theorem execNext_keysKept (h : ExecNext i s t) : KeysKept s t ∨ i = .keygenRand ∨ i = .keygenForced := by
  cases h with
  | keyOk _ _ hi | keyBad _ _ _ hi => exact .inr hi
  | _ => exact .inl ⟨rfl, rfl, rfl⟩

/-- R28: a key generation in flight that ends leaves `KEY_VALID` = 1 exactly on success. -/
theorem execNext_keyValid (h : ExecNext i s t) (hi : i = .keygenRand ∨ i = .keygenForced) (hs : s.seq = .run)
    (ht : t.seq = .idle) : t.status.keyValid = true ↔ t.status.errcode = .ok := by
  cases h with
  | waits => cases hs.symm.trans ht
  | keyOk => simp
  | keyBad _ _ _ _ hc => simpa using hc
  | plain hi' | error _ hi' | result _ hi' | encrypted _ hi' | decrypted _ hi' =>
    rcases hi with rfl | rfl <;> simp at hi'

end Commands

/-! ## The rules over any step -/

/-- `CFG` is written by no kind of step (R22). -/
theorem step_cfg {s t : State} (h : step s = .next t) : t.cfg = s.cfg := by
  cases step_effect h with
  | quiet _ hk => exact hk.cfg
  | accepted _ _ hu | dropped _ _ hu | reset _ _ hu | illegal _ _ hu => exact hu.cfg
  | ended _ _ _ hu _ hx => exact (execNext_hostSideKept hx).1.1.trans hu.cfg

/-- Settles O16: the ranges of R7 fit the fields, and no kind of step writes the parameters. -/
theorem configurationIsConstant : Obligations.ConfigurationIsConstant :=
  ⟨fun p => ⟨cfgWord_toNat p, msgMax_pos p, msgMax_le p, maxDraws_pos p, maxDraws_le p⟩, fun _ _ h => step_cfg h⟩

/-- What a step does to `RES`, `DRAWS`, `KEY_VALID` and the key registers: it keeps them, unless it is a reset or the
end of a command. -/
inductive ResultEffect (s : State) : State → Prop
  | kept (t : State) (hres : t.res = s.res) (hk : KeysKept s t) (hr : ¬ ResetNext s)
      (hn : ∀ i, Runs s i → t.seq = .run) : ResultEffect s t
  | reset (u : State) (m : Memory) (hr : ResetNext s) : ResultEffect s (u.resetRegisters m)
  | ended (u t : State) (i : Instr) (hu : RegsKept s u) (hi : Runs s i) (hx : ExecNext i u t) (ht : t.seq = .idle) :
      ResultEffect s t

theorem RegsKept.keysKept {s t : State} (h : RegsKept s t) : KeysKept s t :=
  ⟨h.keys, h.draws, congrArg Status.keyValid h.status⟩

theorem KeysKept.trans {s u t : State} (h : KeysKept s u) (h' : KeysKept u t) : KeysKept s t :=
  ⟨h'.1.trans h.1, h'.2.1.trans h.2.1, h'.2.2.trans h.2.2⟩

theorem step_resultEffect {s t : State} (h : step s = .next t) : ResultEffect s t := by
  cases step_effect h with
  | quiet _ hk hr => exact .kept t hk.res hk.keysKept hr fun _ hi => hk.seq.trans hi.2.1
  | accepted u w hu hw =>
    exact .kept _ hu.res (hu.keysKept.trans ⟨rfl, rfl, rfl⟩) (not_resetNext_of_cmdWriteNext hw)
      fun _ hi => absurd hi (not_runs_of_cmdWriteNext hw)
  | dropped u w hu hw =>
    exact .kept _ hu.res (hu.keysKept.trans ⟨rfl, rfl, rfl⟩) (not_resetNext_of_cmdWriteNext hw)
      fun _ hi => absurd hi (not_runs_of_cmdWriteNext hw)
  | reset u m _ hr => exact .reset u m hr
  | illegal u why hu he hd =>
    refine .kept _ hu.res (hu.keysKept.trans ⟨rfl, rfl, rfl⟩) (not_resetNext_of_sequencerNext he) fun _ hi => ?_
    cases hi.2.2.symm.trans hd
  | ended u _ i hu hi hx ht => exact .ended u t i hu hi hx ht

/-- Settles O35: of the steps that do not keep `RES`, one is a reset and one the success of an arithmetic command. -/
theorem resultChangesOnlyBySuccess : Obligations.ResultChangesOnlyBySuccess := by
  intro s t h
  cases step_resultEffect h with
  | kept _ hres _ hr => exact ⟨fun h' => absurd h' hr, .inl hres⟩
  | reset _ _ hr => exact ⟨fun _ => rfl, .inr (.inl hr)⟩
  | ended _ _ i hu hi hx =>
    refine ⟨fun h' => absurd h' (not_resetNext_of_sequencerNext hi.1), ?_⟩
    rcases execNext_res hx with hres | ⟨hok, hdone, hi'⟩
    · exact .inl (hres.trans hu.res)
    · refine .inr (.inr ⟨hok, hdone, ?_⟩)
      rcases hi' with rfl | rfl | rfl | rfl <;> simp [hi]

/-- The next step is the sequencer's and a key generation is in flight. -/
abbrev RunsKeygen (s : State) : Prop := Runs s .keygenRand ∨ Runs s .keygenForced

theorem RunsKeygen.exists_runs {s : State} (h : RunsKeygen s) :
    ∃ i, (i = .keygenRand ∨ i = .keygenForced) ∧ Runs s i :=
  h.elim (fun h => ⟨_, .inl rfl, h⟩) fun h => ⟨_, .inr rfl, h⟩

theorem runsKeygen_of_runs {s : State} {i : Instr} (h : Runs s i) (hi : i = .keygenRand ∨ i = .keygenForced) :
    RunsKeygen s := by
  rcases hi with rfl | rfl
  · exact .inl h
  · exact .inr h

/-- R28, R37, R43: a step that is no reset and no end of a key generation keeps what these write. -/
theorem step_keysKept {s t : State} (h : step s = .next t) :
    KeysKept s t ∨ ResetNext s ∨ (RunsKeygen s ∧ t.seq = .idle) := by
  cases step_resultEffect h with
  | kept _ _ hk => exact .inl hk
  | reset _ _ hr => exact .inr (.inl hr)
  | ended _ _ _ hu hi hx ht =>
    rcases execNext_keysKept hx with hk | hi'
    · exact .inl (hu.keysKept.trans hk)
    · exact .inr (.inr ⟨runsKeygen_of_runs hi hi', ht⟩)

/-- A reset clears the key, `KEY_VALID` and `DRAWS` (R230 to R232). -/
theorem step_resetNext {s t : State} (h : step s = .next t) (hr : ResetNext s) :
    t.status.keyValid = false ∧ t.keys = KeyRegs.zero ∧ t.draws = 0#64 := by
  cases step_resultEffect h with
  | kept _ _ _ hr' => exact absurd hr hr'
  | reset => exact ⟨rfl, rfl, rfl⟩
  | ended _ _ _ _ hi => exact absurd hr (not_resetNext_of_sequencerNext hi.1)

/-- A key generation that ends leaves `KEY_VALID` = 1 exactly on success (R28). -/
theorem step_runsKeygen {s t : State} (h : step s = .next t) (hk : RunsKeygen s) (ht : t.seq = .idle) :
    t.status.keyValid = true ↔ t.status.errcode = .ok := by
  obtain ⟨i, hkey, hi⟩ := hk.exists_runs
  cases step_resultEffect h with
  | kept _ _ _ _ hn => cases (hn i hi).symm.trans ht
  | reset _ _ hr => exact absurd hr (not_resetNext_of_sequencerNext hi.1)
  | ended _ _ j hu hj hx =>
    obtain rfl := runs_unique hi hj
    exact execNext_keyValid hx hkey (hu.seq.trans hi.2.1) ht

/-- Settles O41, by what a reset, the end of a key generation and any other step leave, and the invariant of R44. -/
theorem keyValidChangesOnlyByKeygen : Obligations.KeyValidChangesOnlyByKeygen := by
  refine ⟨fun s t h => ⟨fun hr => (step_resetNext h hr).1, step_runsKeygen h, fun hne => ?_⟩,
    fun s hr => (inv_of_reachable hr).key⟩
  exact (step_keysKept h).resolve_left fun hk => hne hk.2.2

/-! ## The last command and the overrun flag -/

/-- What a step does to `CMD`, `LAST_OP` and `OVR`: it keeps them, unless it is a `CMD` write or a reset. -/
inductive CommandEffect (s : State) : State → Prop
  | kept (t : State) (hcmd : t.cmd = s.cmd) (hop : t.status.lastOp = s.status.lastOp)
      (hovr : t.status.ovr = s.status.ovr) (hr : ¬ ResetNext s) (hc : ∀ w, ¬ CmdWriteNext s w) : CommandEffect s t
  | accepted (u : State) (w : Word) (hw : CmdWriteNext s w) (hb : s.status.busy = false) : CommandEffect s (u.accept w)
  | dropped (u : State) (w : Word) (hcmd : u.cmd = s.cmd) (hop : u.status.lastOp = s.status.lastOp)
      (hw : CmdWriteNext s w) (hb : s.status.busy = true) : CommandEffect s u.overrun
  | reset (u : State) (m : Memory) (hr : ResetNext s) : CommandEffect s (u.resetRegisters m)

theorem step_commandEffect {s t : State} (h : step s = .next t) : CommandEffect s t := by
  cases step_effect h with
  | quiet _ hk hr hc => exact .kept t hk.cmd (congrArg Status.lastOp hk.status) (congrArg Status.ovr hk.status) hr hc
  | accepted u w _ hw hb => exact .accepted u w hw hb
  | dropped u w hu hw hb => exact .dropped u w hu.cmd (congrArg Status.lastOp hu.status) hw hb
  | reset u m _ hr => exact .reset u m hr
  | illegal u _ hu he =>
    have hop : u.status.lastOp = s.status.lastOp := congrArg Status.lastOp hu.status
    have hovr : u.status.ovr = s.status.ovr := congrArg Status.ovr hu.status
    exact .kept _ hu.cmd hop hovr (not_resetNext_of_sequencerNext he) (not_cmdWriteNext_of_sequencerNext he)
  | ended _ _ _ hu hi hx =>
    obtain ⟨⟨-, -, hcmd, -⟩, hovr, hop⟩ := execNext_hostSideKept hx
    exact .kept t (hcmd.trans hu.cmd) (hop.trans (congrArg Status.lastOp hu.status))
      (hovr.trans (congrArg Status.ovr hu.status)) (not_resetNext_of_sequencerNext hi.1)
      (not_cmdWriteNext_of_sequencerNext hi.1)

/-- Settles O49, by the four kinds of step. -/
theorem overrunFlagRule : Obligations.OverrunFlagRule := by
  intro s t h
  cases step_commandEffect h with
  | kept _ _ _ hovr hr hc => exact ⟨fun w hw => absurd hw (hc w), fun hr' => absurd hr' hr, fun _ _ => hovr⟩
  | accepted _ w hw hb | dropped _ w _ _ hw hb =>
    exact ⟨fun _ _ => hb.symm, fun hr => absurd hr (not_resetNext_of_cmdWriteNext hw), fun _ hc => absurd hw (hc w)⟩
  | reset _ _ hr =>
    exact ⟨fun w hw => absurd hr (not_resetNext_of_cmdWriteNext hw), fun _ => rfl, fun hr' => absurd hr hr'⟩

/-- Settles O50, by the four kinds of step. -/
theorem lastCommandRule : Obligations.LastCommandRule := by
  intro s t h
  cases step_commandEffect h with
  | kept _ hcmd hop _ hr hc =>
    exact ⟨fun w hw => absurd hw (hc w), fun hr' => absurd hr' hr, fun _ _ => ⟨hcmd, hop⟩⟩
  | accepted _ w hw hb =>
    refine ⟨fun w' hw' _ => ?_, fun hr => absurd hr (not_resetNext_of_cmdWriteNext hw), fun _ hbusy => ?_⟩
    · obtain rfl := cmdWriteNext_unique hw hw'
      exact ⟨rfl, rfl⟩
    · cases hb.symm.trans (hbusy w hw)
  | dropped _ w hcmd hop hw hb =>
    refine ⟨fun _ _ hidle => ?_, fun hr => absurd hr (not_resetNext_of_cmdWriteNext hw), fun _ _ => ⟨hcmd, hop⟩⟩
    cases hb.symm.trans hidle
  | reset _ _ hr =>
    exact ⟨fun w hw => absurd hr (not_resetNext_of_cmdWriteNext hw), fun _ => ⟨rfl, rfl⟩, fun hr' => absurd hr hr'⟩

/-! ## What a command does not read (R34, R43, R244) -/

/-- A change of the state that no operand, check or end of a command other than a key generation depends on, and that
these leave in place. -/
structure UnreadByCommands (f : State → State) : Prop where
  cfg      : ∀ s, (f s).cfg = s.cfg
  status   : ∀ s, (f s).status = s.status
  latch    : ∀ s, (f s).latch = s.latch
  mem      : ∀ s, (f s).mem = s.mem
  keyN     : ∀ s, (f s).keys.n = s.keys.n
  keyE     : ∀ s, (f s).keys.e = s.keys.e
  keyD     : ∀ s, (f s).keys.d = s.keys.d
  setRes   : ∀ s v, { f s with res := v } = f { s with res := v }
  setMem   : ∀ s m, { f s with mem := m } = f { s with mem := m }
  complete : ∀ s code, (f s).complete code = f (s.complete code)

section Noninterference

variable {f : State → State}

theorem UnreadByCommands.completeRes (hf : UnreadByCommands f) (s : State) (v : Word) :
    (f s).completeRes v = f (s.completeRes v) := by
  rw [State.completeRes, hf.setRes, hf.complete]
  rfl

theorem UnreadByCommands.raiseErr (hf : UnreadByCommands f) (s : State) (code : ErrCode) :
    (f s).raiseErr code = f (s.raiseErr code) := hf.complete s code

theorem UnreadByCommands.cipherEnd (hf : UnreadByCommands f) (s : State) (run : Except Fault Memory) :
    SameOutcome f (s.cipherEnd run) ((f s).cipherEnd run) := by
  have hv : (f s).status.keyValid = s.status.keyValid := by rw [hf.status]
  have hl : (f s).cfg.msgMax < (f s).opndLen ↔ s.cfg.msgMax < s.opndLen := by rw [State.opndLen, hf.latch, hf.cfg]
  simp only [State.cipherEnd, hv, hl]
  split_ifs
  · exact hf.raiseErr s _
  · exact hf.raiseErr s _
  · cases run with
    | error => rfl
    | ok m =>
      change State.complete { f s with mem := m } .ok = f (State.complete { s with mem := m } .ok)
      rw [hf.setMem, hf.complete]

theorem UnreadByCommands.encryptRun (hf : UnreadByCommands f) (s : State) : (f s).encryptRun = s.encryptRun := by
  simp only [State.encryptRun, State.opndKeyE, State.opndKeyN, State.opndLen, hf.mem, hf.keyE, hf.keyN, hf.latch]

theorem UnreadByCommands.decryptRun (hf : UnreadByCommands f) (s : State) : (f s).decryptRun = s.decryptRun := by
  simp only [State.decryptRun, State.opndKeyD, State.opndKeyN, State.opndLen, hf.mem, hf.keyD, hf.keyN, hf.latch]

/-- The arithmetic commands see their latches only, the cipher commands these, the buffers, `KEY_VALID`, `KEY_N`,
`KEY_E` and `KEY_D`. -/
theorem UnreadByCommands.exec (hf : UnreadByCommands f) {i : Instr} (hr : i ≠ .keygenRand) (hk : i ≠ .keygenForced)
    (s : State) : SameOutcome f (exec i s) (exec i (f s)) := by
  cases i with
  | nop => exact hf.complete s .ok
  | primeTest =>
    simp only [Machine.exec, execPrimeTest, State.opndA, hf.latch]
    exact hf.completeRes s _
  | gcd =>
    simp only [Machine.exec, execGcd, State.opndA, State.opndB, hf.latch]
    exact hf.completeRes s _
  | modinv =>
    simp only [Machine.exec, execModinv, State.opndA, State.opndB, hf.latch]
    split_ifs
    · exact hf.completeRes s _
    · exact hf.raiseErr s _
    · exact hf.raiseErr s _
    · exact hf.completeRes s _
  | modexp =>
    simp only [Machine.exec, execModexp, State.opndA, State.opndB, State.opndC, hf.latch]
    split_ifs
    · exact hf.raiseErr s _
    · exact hf.completeRes s _
  | keygenRand => exact absurd rfl hr
  | keygenForced => exact absurd rfl hk
  | encrypt =>
    rw [exec_encrypt_eq, exec_encrypt_eq, hf.encryptRun]
    exact hf.cipherEnd s _
  | decrypt =>
    rw [exec_decrypt_eq, exec_decrypt_eq, hf.decryptRun]
    exact hf.cipherEnd s _

end Noninterference

/-- The state with other values in the four operand registers. -/
def State.withOperands (a b c l : Word) (s : State) : State := { s with opa := a, opb := b, opc := c, msgLen := l }

/-- The state with other values in `KEY_P`, `KEY_Q` and `KEY_PHI`. -/
def State.withPrimes (p q phi : Word) (s : State) : State := { s with keys := { s.keys with p := p, q := q, phi := phi } }

theorem withOperands_unread (a b c l : Word) : UnreadByCommands (State.withOperands a b c l) := by
  constructor <;> intros <;> rfl

theorem withPrimes_unread (p q phi : Word) : UnreadByCommands (State.withPrimes p q phi) := by
  constructor <;> intros <;> rfl

section KeygenOperands

variable (a b c l : Word) (s : State)

theorem keyTail_withOperands (p q drawn : Nat) :
    keyTail p q drawn (s.withOperands a b c l) = (keyTail p q drawn s).withOperands a b c l := by
  simp only [keyTail]
  split_ifs <;> rfl

theorem execKeygenRand_withOperands :
    SameOutcome (State.withOperands a b c l) (execKeygenRand s) (execKeygenRand (s.withOperands a b c l)) := by
  have hd : (s.withOperands a b c l).drawResult = s.drawResult := rfl
  simp only [execKeygenRand, hd]
  cases s.drawResult with
  | waiting => rfl
  | failed => rfl
  | primes p q drawn => exact keyTail_withOperands a b c l s p q drawn

theorem execKeygenForced_withOperands :
    SameOutcome (State.withOperands a b c l) (execKeygenForced s) (execKeygenForced (s.withOperands a b c l)) := by
  have hl : (s.withOperands a b c l).latch = s.latch := rfl
  simp only [execKeygenForced, State.opndA, State.opndB, hl]
  split_ifs
  · rfl
  · exact keyTail_withOperands a b c l s _ _ 0

theorem exec_withOperands (i : Instr) :
    SameOutcome (State.withOperands a b c l) (exec i s) (exec i (s.withOperands a b c l)) := by
  by_cases hr : i = .keygenRand
  · subst hr
    exact execKeygenRand_withOperands a b c l s
  · by_cases hk : i = .keygenForced
    · subst hk
      exact execKeygenForced_withOperands a b c l s
    · exact (withOperands_unread a b c l).exec hr hk s

end KeygenOperands

/-- Settles O18: host accesses reach the live registers, commands only their latched copies. -/
theorem operandRegistersAreLatched : Obligations.OperandRegistersAreLatched := by
  refine ⟨fun s v => ⟨step_write_reg s v .opa, step_write_reg s v .opb, step_write_reg s v .opc,
    step_write_reg s v .msgLen, step_read_reg s .opa, step_read_reg s .opb, step_read_reg s .opc,
    step_read_reg s .msgLen⟩, fun i s t h => ?_, fun i s a b c l => exec_withOperands a b c l s i⟩
  obtain ⟨⟨-, -, -, hopa, hopb, hopc, hlen, -⟩, -, -⟩ := execNext_hostSideKept (exec_next h)
  exact ⟨hopa, hopb, hopc, hlen⟩

/-- Settles O42, by what the steps keep, and by what a command does not read. -/
theorem keyRegistersChangeOnlyByKeygen : Obligations.KeyRegistersChangeOnlyByKeygen := by
  refine ⟨fun s t h => ⟨fun hr => (step_resetNext h hr).2, fun hne => ?_⟩,
    fun i s p q phi hr hk => (withPrimes_unread p q phi).exec hr hk s,
    fun s => ⟨step_read_reg s .keyP, step_read_reg s .keyQ, step_read_reg s .keyN, step_read_reg s .keyPhi,
      step_read_reg s .keyE, step_read_reg s .keyD⟩⟩
  exact (step_keysKept h).resolve_left fun ⟨hkeys, hdraws, _⟩ => hne.elim (· hkeys) (· hdraws)

/-! ## The latches of an idle block (R41) -/

/-- The state with other latches. -/
def State.withLatch (l : Latches) (s : State) : State := { s with latch := l }

section IdleLatches

variable {s : State} (l : Latches)

theorem softReset_of_idle (hb : s.status.busy = false) : s.softReset = s.resetRegisters s.mem := by
  simp [State.softReset, State.softResetMemory, inFlight_eq_false (.inl hb)]

theorem readReg_withLatch (r : Reg) : (s.withLatch l).readReg r = s.readReg r := by cases r <;> rfl

theorem readStored_withLatch (buf : BufName) (i : Nat) (v : Option Word) :
    SameOutcome (State.withLatch l) (s.readStored buf i v) ((s.withLatch l).readStored buf i v) := by
  cases v <;> rfl

theorem readTarget_withLatch (hb : s.status.busy = false) (tgt : Target) :
    SameOutcome (State.withLatch l) (s.readTarget tgt) ((s.withLatch l).readTarget tgt) := by
  have hf (i : Instr) : s.inFlight i = false := inFlight_eq_false (.inl hb)
  have hf' (i : Instr) : (s.withLatch l).inFlight i = false := inFlight_eq_false (.inl hb)
  cases tgt with
  | reg r =>
    simp only [State.readTarget, readReg_withLatch]
    rfl
  | msg i => exact readStored_withLatch l .msg i _
  | ct i =>
    simp only [State.readTarget, hf, hf', Bool.false_eq_true, if_false]
    exact readStored_withLatch l .ct i _
  | dec i =>
    simp only [State.readTarget, hf, hf', Bool.false_eq_true, if_false]
    exact readStored_withLatch l .dec i _

/-- A reset and an acceptance write all the latches; any other write to an idle block leaves them. -/
theorem writeReg_withLatch (hb : s.status.busy = false) (v : Word) (r : Reg) :
    ∃ l', (s.withLatch l).writeReg v r = (s.writeReg v r).withLatch l' := by
  cases r with
  | ctrl =>
    cases hv : v.getLsbD 1 with
    | false =>
      rw [writeReg_ctrl_of_bit1_clear _ hv, writeReg_ctrl_of_bit1_clear _ hv]
      exact ⟨l, rfl⟩
    | true =>
      rw [writeReg_ctrl_of_bit1_set _ hv, writeReg_ctrl_of_bit1_set _ hv, softReset_of_idle hb,
        softReset_of_idle (s := s.withLatch l) hb]
      exact ⟨freeLatches s.freeCtr, rfl⟩
  | irqStatus =>
    rw [writeReg_irqStatus, writeReg_irqStatus]
    exact ⟨l, rfl⟩
  | cmd =>
    rw [writeReg_cmd_of_idle hb, writeReg_cmd_of_idle (s := s.withLatch l) hb]
    exact ⟨(s.accept v).latch, rfl⟩
  | _ => exact ⟨l, rfl⟩

theorem writeTarget_withLatch (hb : s.status.busy = false) (v : Word) (tgt : Target) :
    ∃ l', (s.withLatch l).writeTarget v tgt = (s.writeTarget v tgt).withLatch l' := by
  cases tgt with
  | reg r => exact writeReg_withLatch l hb v r
  | msg i => exact ⟨l, by simp [State.writeTarget, State.withLatch, hb, State.storeMsg]⟩
  | ct i => exact ⟨l, by simp [State.writeTarget, State.withLatch, hb, State.storeCt]⟩
  | dec i => exact ⟨l, rfl⟩

theorem hostRead_withLatch (hb : s.status.busy = false) (off : Offset) :
    SameOutcome (State.withLatch l) (s.hostRead off) ((s.withLatch l).hostRead off) := by
  have hc : (s.withLatch l).cfg = s.cfg := rfl
  simp only [State.hostRead, hc]
  cases locate s.cfg off with
  | error => rfl
  | ok tgt => exact readTarget_withLatch l hb tgt

theorem hostWrite_withLatch (hb : s.status.busy = false) (off : Offset) (v : Word) :
    ∃ l', SameOutcome (State.withLatch l') (s.hostWrite off v) ((s.withLatch l).hostWrite off v) := by
  have hc : (s.withLatch l).cfg = s.cfg := rfl
  simp only [State.hostWrite, hc]
  cases locate s.cfg off with
  | error => exact ⟨l, rfl⟩
  | ok tgt => exact writeTarget_withLatch (s := { s with busResp := none }) l hb v tgt

theorem rngAnswer_of_idle (hb : s.status.busy = false) (v : Word) : s.rngAnswer v = s := by
  simp [State.rngAnswer, State.awaitsDraw, inFlight_eq_false (.inl hb)]

theorem agentStep_withLatch (hb : s.status.busy = false) (hs : s.seq = .idle) (ev : Event) :
    ∃ l', SameOutcome (State.withLatch l') (s.agentStep ev) ((s.withLatch l).agentStep ev) := by
  cases ev with
  | host a =>
    cases a with
    | read off => exact ⟨l, hostRead_withLatch l hb off⟩
    | write off v => exact hostWrite_withLatch l hb off v
  | sequencer =>
    rw [agentStep_sequencer, agentStep_sequencer, sequencerTurn_of_idle hs,
      sequencerTurn_of_idle (s := s.withLatch l) hs]
    exact ⟨l, rfl⟩
  | rngAnswer v =>
    rw [agentStep_rngAnswer, agentStep_rngAnswer, rngAnswer_of_idle hb, rngAnswer_of_idle (s := s.withLatch l) hb]
    exact ⟨l, rfl⟩
  | hardReset => exact ⟨freeLatches s.freeCtr, rfl⟩

end IdleLatches

/-- Settles O51, by the event that comes next. -/
theorem idleLatchesAreNeverObserved : Obligations.IdleLatchesAreNeverObserved := by
  intro s l hb hs
  change ∃ l', SameOutcome (State.withLatch l') s.nextStep (s.withLatch l).nextStep
  have hi : (s.withLatch l).inputs = s.inputs := rfl
  simp only [State.nextStep, hi]
  cases s.inputs with
  | nil => exact agentStep_withLatch l hb hs .sequencer
  | cons ev rest => exact agentStep_withLatch (s := { s with inputs := rest }) l hb hs ev

end Sys2Proof.Machine
end

section
/-! SUPPORT. Proofs of the statements about the memory map (20_memory.md): which host accesses fault, what a read leaves
unchanged, and the buffers while a command is in flight. -/

namespace Sys2Proof.Machine

/-! ## Which offsets are mapped (R61, R63) -/

theorem targetAt_isSome_iff {cap : Nat} (hcap : cap ≤ 0x2000) (k : Nat) :
    (targetAt cap k).isSome = true ↔
      k ≤ 17 ∨ ∃ i, i < cap ∧ (k = 0x2000 + i ∨ k = 0x4000 + i ∨ k = 0x6000 + i) := by
  unfold targetAt
  split_ifs with hreg hmsg hlt hct hlt hlt
  · rw [Option.isSome_map, regAt_isSome_iff]
    exact (or_iff_left (by rintro ⟨i, -, h⟩; omega)).symm
  · exact iff_of_true rfl (.inr ⟨_, hlt, by omega⟩)
  · exact iff_of_false (by simp) (by rintro (h | ⟨i, hi, h⟩) <;> omega)
  · exact iff_of_true rfl (.inr ⟨_, hlt, by omega⟩)
  · exact iff_of_false (by simp) (by rintro (h | ⟨i, hi, h⟩) <;> omega)
  · exact iff_of_true rfl (.inr ⟨_, hlt, by omega⟩)
  · exact iff_of_false (by simp) (by rintro (h | ⟨i, hi, h⟩) <;> omega)

/-- An offset of the register block or of an entry of a buffer (R20, R63). -/
def Mapped (p : Params) (off : Offset) : Prop :=
  off.toNat ≤ 0x088 ∨ ∃ i, i < p.msgMax ∧
    (off.toNat = 0x10000 + 8 * i ∨ off.toNat = 0x20000 + 8 * i ∨ off.toNat = 0x30000 + 8 * i)

section Locate

variable {p : Params} {off : Offset}

/-- The map of R63 in words of eight bytes is the one in offsets. -/
theorem targetAt_isSome_iff_mapped (ha : off.toNat % 8 = 0) :
    (targetAt p.msgMax (off.toNat / 8)).isSome = true ↔ Mapped p off := by
  rw [targetAt_isSome_iff (msgMax_le p)]
  refine or_congr (by omega) (exists_congr fun i => and_congr_right fun _ => ?_)
  omega

theorem locate_of_misaligned (h : off.toNat % 8 ≠ 0) : locate p off = .error (.hostMisaligned off) := if_pos h

theorem exists_locate_of_mapped (ha : off.toNat % 8 = 0) (hm : Mapped p off) : ∃ tgt, locate p off = .ok tgt := by
  obtain ⟨tgt, ht⟩ := Option.isSome_iff_exists.1 ((targetAt_isSome_iff_mapped ha).2 hm)
  exact ⟨tgt, by simp [locate, ha, ht]⟩

theorem locate_of_not_mapped (ha : off.toNat % 8 = 0) (hm : ¬ Mapped p off) :
    locate p off = .error (.hostUnmapped off) := by
  have ht : targetAt p.msgMax (off.toNat / 8) = none :=
    Option.not_isSome_iff_eq_none.1 (mt (targetAt_isSome_iff_mapped ha).1 hm)
  simp [locate, ha, ht]

end Locate

section Access

variable {s : State} {off : Offset}

theorem hostRead_of_locate_error {f : Fault} (h : locate s.cfg off = .error f) : s.hostRead off = .fault f := by
  simp [State.hostRead, h]

theorem hostWrite_of_locate_error {f : Fault} (v : Word) (h : locate s.cfg off = .error f) :
    s.hostWrite off v = .fault f := by
  simp [State.hostWrite, h]

theorem readStored_fault {buf : BufName} {i : Nat} {v : Option Word} {f : Fault} (h : s.readStored buf i v = .fault f) :
    f = .unwrittenRead buf i := by
  cases v <;> cases h
  rfl

/-- The only fault of a read at a mapped offset is that of an unwritten entry (R48). -/
theorem readTarget_fault {tgt : Target} {f : Fault} (h : s.readTarget tgt = .fault f) :
    ∃ buf i, f = .unwrittenRead buf i := by
  cases tgt with
  | reg r => cases h
  | msg i => exact ⟨_, _, readStored_fault h⟩
  | ct i | dec i =>
    simp only [State.readTarget] at h
    split_ifs at h
    exact ⟨_, _, readStored_fault h⟩

theorem readTarget_ne_unmapped (tgt : Target) : s.readTarget tgt ≠ .fault (.hostUnmapped off) := by
  intro h
  obtain ⟨buf, i, hf⟩ := readTarget_fault h
  cases hf

end Access

/-- Settles O11: the map refuses the offset before it looks up a target. -/
theorem misalignedAccessFaults : Obligations.MisalignedAccessFaults := by
  intro s off v h
  exact ⟨hostRead_of_locate_error (locate_of_misaligned h), hostWrite_of_locate_error v (locate_of_misaligned h)⟩

/-- Settles O12: a mapped offset has a target, whose read faults otherwise if at all and whose write never does. -/
theorem unmappedAccessFaults : Obligations.UnmappedAccessFaults := by
  intro s off v ha mapped
  by_cases hm : Mapped s.cfg off
  · obtain ⟨tgt, ht⟩ := exists_locate_of_mapped ha hm
    simp only [step_upNext, agentStep_read, agentStep_write, hostRead_of_locate ht, hostWrite_of_locate v ht]
    exact ⟨iff_of_false (readTarget_ne_unmapped tgt) (not_not_intro hm), iff_of_false nofun (not_not_intro hm),
      fun _ => ⟨_, rfl⟩⟩
  · have hl := locate_of_not_mapped ha hm
    exact ⟨iff_of_true (hostRead_of_locate_error hl) hm, iff_of_true (hostWrite_of_locate_error v hl) hm,
      fun h => absurd h hm⟩

/-! ## A read leaves the block as it is (R66) -/

/-- Of the kinds of step, two begin with a host read. -/
theorem step_read_next {s t : State} {off : Offset} (h : step (s.upNext (.host (.read off))) = .next t) :
    (∃ v, t = s.respond v) ∨ t = s.respondFree := by
  have hx : StepNext (s.upNext (.host (.read off))) s t := step_next h
  have hs : ¬ SequencerNext (s.upNext (.host (.read off))) := by rintro (he | he) <;> cases he
  cases hx with
  | read v => exact .inl ⟨v, rfl⟩
  | readFree => exact .inr rfl
  | idle he | command _ _ he | illegal _ he => exact absurd he hs
  | write _ _ _ he | answer _ he | hardReset he => cases he

/-- Settles O17: a read answers a value or a free one. -/
theorem readsHaveNoSideEffect : Obligations.ReadsHaveNoSideEffect := by
  intro s t off h
  obtain ⟨v, rfl⟩ | rfl := step_read_next h
  · exact ⟨v, rfl⟩
  · exact ⟨_, rfl⟩

/-! ## The buffers while a command is in flight (R68) -/

section Busy

variable {s : State} {i : Nat}

theorem step_write_msg_busy (v : Word) (hb : s.status.busy = true) (hi : i < s.cfg.msgMax) :
    step (s.upNext (.host (.write (msgOffset i) v))) = .next { s with busResp := none } := by
  refine (step_write_target v (tgt := .msg i) (locate_offset s.cfg (.msg i) hi)).trans ?_
  simp [State.writeTarget, hb]

theorem step_write_ct_busy (v : Word) (hb : s.status.busy = true) (hi : i < s.cfg.msgMax) :
    step (s.upNext (.host (.write (ctOffset i) v))) = .next { s with busResp := none } := by
  refine (step_write_target v (tgt := .ct i) (locate_offset s.cfg (.ct i) hi)).trans ?_
  simp [State.writeTarget, hb]

/-- A read of the buffer that `ENCRYPT` is writing is UNSPECIFIED. -/
theorem step_read_ct_encrypting (hi : i < s.cfg.msgMax) (hf : s.inFlight .encrypt = true) :
    step (s.upNext (.host (.read (ctOffset i)))) = .next s.respondFree :=
  (step_read_target (tgt := .ct i) (locate_offset s.cfg (.ct i) hi)).trans (if_pos hf)

/-- A read of the buffer that `DECRYPT` is writing is UNSPECIFIED. -/
theorem step_read_dec_decrypting (hi : i < s.cfg.msgMax) (hf : s.inFlight .decrypt = true) :
    step (s.upNext (.host (.read (decOffset i)))) = .next s.respondFree :=
  (step_read_target (tgt := .dec i) (locate_offset s.cfg (.dec i) hi)).trans (if_pos hf)

end Busy

/-- Settles O25, by the rules of the buffers of a busy block. -/
theorem buffersWhileBusy : Obligations.BuffersWhileBusy := by
  intro s i v hb hi
  refine ⟨step_write_msg_busy v hb hi, step_write_ct_busy v hb hi, fun b => step_read_msg_written hi, fun hd => ?_,
    fun hd => ?_, fun hd c => ?_, fun hd c => ?_⟩
  · exact ⟨_, step_read_ct_encrypting hi ((inFlight_eq_true_iff s _).2 ⟨hb, hd⟩)⟩
  · exact ⟨_, step_read_dec_decrypting hi ((inFlight_eq_true_iff s _).2 ⟨hb, hd⟩)⟩
  · exact step_read_ct_written hi (inFlight_eq_false (.inr hd))
  · exact step_read_dec_written hi (inFlight_eq_false (.inr hd))

end Sys2Proof.Machine
end

section
/-! SUPPORT. Proofs of the statements about the encoding (30_encoding.md): which words are commands, which are illegal and
why, and the transaction and branch of each line of a host script. -/

namespace Sys2Proof.Machine

/-! ## The fields of a command word (R80) -/

section Decoding

variable {w : Word} {op : Byte} {i : Instr}

theorem reservedField_eq_zero_iff : reservedField w = 0#56 ↔ w.toNat < 0x100 := by
  have hw := w.isLt
  rw [← BitVec.toNat_inj, reservedField, BitVec.extractLsb'_toNat, Nat.shiftRight_eq_div_pow, BitVec.toNat_ofNat]
  omega

theorem opcodeField_toNat (h : w.toNat < 0x100) : (opcodeField w).toNat = w.toNat := by
  rw [opcodeField, BitVec.extractLsb'_toNat, Nat.shiftRight_zero]
  exact Nat.mod_eq_of_lt h

/-! ## The rows of the opcode map (R83) -/

theorem toNat_eq_of_decodeOpcode (h : decodeOpcode op = .command i) : op.toNat = (encode i).toNat := by
  unfold decodeOpcode at h
  split at h <;> cases h <;> assumption

theorem decodeOpcode_eq_unassigned_iff : decodeOpcode op = .illegal .unassignedOpcode ↔ 0x9 ≤ op.toNat := by
  unfold decodeOpcode
  split
  case h_10 =>
    refine iff_of_true rfl ?_
    simp only [imp_false] at *
    omega
  all_goals exact iff_of_false nofun (by omega)

theorem decodeOpcode_ne_reservedBits : decodeOpcode op ≠ .illegal .reservedBits := by
  unfold decodeOpcode
  split <;> nofun

/-! ## Decoding in the order of R82 -/

theorem decode_of_reserved_bits (h : 0x100 ≤ w.toNat) : decode w = .illegal .reservedBits :=
  if_pos (mt reservedField_eq_zero_iff.1 (by omega))

theorem decode_of_reserved_clear (h : w.toNat < 0x100) : decode w = decodeOpcode (opcodeField w) :=
  if_neg (not_not_intro (reservedField_eq_zero_iff.2 h))

theorem decode_encode (i : Instr) : decode (encode i) = .command i := by cases i <;> rfl

theorem eq_encode_of_decode (h : decode w = .command i) : w = encode i := by
  rcases Nat.lt_or_ge w.toNat 0x100 with hw | hw
  · rw [decode_of_reserved_clear hw] at h
    exact BitVec.eq_of_toNat_eq ((opcodeField_toNat hw).symm.trans (toNat_eq_of_decodeOpcode h))
  · cases (decode_of_reserved_bits hw).symm.trans h

theorem decode_eq_reservedBits_iff : decode w = .illegal .reservedBits ↔ 0x100 ≤ w.toNat := by
  refine ⟨fun h => ?_, decode_of_reserved_bits⟩
  by_contra hw
  exact decodeOpcode_ne_reservedBits ((decode_of_reserved_clear (by omega)).symm.trans h)

theorem decode_eq_unassigned_iff : decode w = .illegal .unassignedOpcode ↔ 0x9 ≤ w.toNat ∧ w.toNat ≤ 0xFF := by
  rcases Nat.lt_or_ge w.toNat 0x100 with hw | hw
  · rw [decode_of_reserved_clear hw, decodeOpcode_eq_unassigned_iff, opcodeField_toNat hw]
    omega
  · rw [decode_of_reserved_bits hw]
    exact iff_of_false nofun (by omega)

theorem exists_decode_illegal_iff : (∃ why, decode w = .illegal why) ↔ 0x9 ≤ w.toNat := by
  constructor
  · rintro ⟨_ | _, h⟩
    · have := decode_eq_reservedBits_iff.1 h
      omega
    · exact (decode_eq_unassigned_iff.1 h).1
  · intro h
    rcases Nat.lt_or_ge w.toNat 0x100 with hw | hw
    · exact ⟨_, decode_eq_unassigned_iff.2 ⟨h, by omega⟩⟩
    · exact ⟨_, decode_of_reserved_bits hw⟩

end Decoding

/-- Settles O1: each command word decodes to its command, and a word that decodes to a command is its command word. -/
theorem decodeMatchesOpcodeMap : Obligations.DecodeMatchesOpcodeMap := by
  refine ⟨by decide, fun w i => ⟨eq_encode_of_decode, ?_⟩⟩
  rintro rfl
  exact decode_encode i

/-- Settles O2, by the two steps of R82 that find a word illegal. -/
theorem illegalWordsAreNamed : Obligations.IllegalWordsAreNamed := fun _ =>
  ⟨decode_eq_reservedBits_iff, decode_eq_unassigned_iff, exists_decode_illegal_iff⟩

/-- Settles O3: five command words of R83, and a word of each illegal kind. -/
theorem sampleWordsDecode : Obligations.SampleWordsDecode :=
  ⟨decode_encode .primeTest, decode_encode .modinv, decode_encode .modexp, decode_encode .keygenRand,
    decode_encode .decrypt, decode_eq_unassigned_iff.2 (by decide), decode_of_reserved_bits (by decide)⟩

/-! ## Host scripts (R86, R87) -/

section HostScripts

variable {pre post : List Line} {line : Line} {s b : State}

/-- A host whose line makes a transaction that the block answers goes where its statement says. -/
theorem hostTurn_of_step (h : step (s.upNext (.host line.stmt.access)) = .next b) :
    HostRun.hostTurn ⟨pre ++ line :: post, pre.length, s⟩ =
      .next ⟨pre ++ line :: post,
        nextPos (pre ++ line :: post) pre.length line.stmt (b.busResp.getD 0#64), b⟩ := by
  have hl : (pre ++ line :: post)[pre.length]? = some line := by simp
  have hs : step { s with inputs := .host line.stmt.access :: s.inputs } = .next b := h
  simp only [HostRun.hostTurn, hl, hs]

theorem nextPos_bnz {prog : List Line} {l : Label} {k : Nat} (pos : Nat) (name : Target) (mask v : Word)
    (hk : findLabel l prog = some k) :
    nextPos prog pos (.bnz name mask l) v = if v &&& mask ≠ 0#64 then k else pos + 1 := by
  simp only [nextPos, hk, Option.getD_some]

theorem hostTurn_bnz {ls : List Label} {name : Target} {mask v : Word} {l : Label} {k : Nat}
    (hk : findLabel l (pre ++ ⟨ls, .bnz name mask l⟩ :: post) = some k)
    (h : step (s.upNext (.host (.read name.offset))) = .next b) (hv : b.busResp = some v) :
    HostRun.hostTurn ⟨pre ++ ⟨ls, .bnz name mask l⟩ :: post, pre.length, s⟩ =
      .next ⟨pre ++ ⟨ls, .bnz name mask l⟩ :: post, if v &&& mask ≠ 0#64 then k else pre.length + 1, b⟩ := by
  rw [hostTurn_of_step h, nextPos_bnz _ _ _ _ hk, hv, Option.getD_some]

/-- A label that no earlier line carries is found at its line. -/
theorem findLabel_append_cons {l : Label} (hpre : ∀ x ∈ pre, l ∉ x.labels) (hl : l ∈ line.labels) :
    findLabel l (pre ++ line :: post) = some pre.length := by
  induction pre with
  | nil => exact if_pos hl
  | cons x xs ih =>
    obtain ⟨hx, hxs⟩ := List.forall_mem_cons.1 hpre
    rw [List.cons_append, findLabel, if_neg hx, ih hxs, Option.map_some, List.length_cons]

theorem bitNat_le_one (b : Bool) : bitNat b ≤ 1 := by cases b <;> decide

/-- The mask of `wait` selects `BUSY` (R24). -/
theorem statusWord_and_one_ne_zero_iff (st : Status) : st.word &&& 1#64 ≠ 0#64 ↔ st.busy = true := by
  have hbit : (st.word &&& 1#64).toNat = bitNat st.busy := by
    rw [BitVec.toNat_and, BitVec.toNat_ofNat, Nat.one_mod_two_pow (by decide), Nat.and_one_is_mod, statusWord_toNat]
    have hb := bitNat_le_one st.busy
    omega
  rw [Ne, ← BitVec.toNat_inj, hbit]
  cases st.busy <;> decide

end HostScripts

/-- Settles O58: the fresh label is found at the line of the `wait`, whose read answers `STATUS`. -/
theorem waitPollsTheBusyBit : Obligations.WaitPollsTheBusyBit := by
  intro pre post k s hfresh
  have hk : findLabel (.fresh k) (pre ++ waitLine k :: post) = some pre.length :=
    findLabel_append_cons hfresh (List.mem_singleton_self _)
  refine (hostTurn_bnz hk (step_read_reg s .status) rfl).trans ?_
  simp only [State.readReg, statusWord_and_one_ne_zero_iff]
  rfl

/-- Settles O57, by the host's turn at a line whose transaction the block answers. -/
theorem hostStatementsMakeTheirTransactions : Obligations.HostStatementsMakeTheirTransactions := by
  refine ⟨fun r i => ⟨rfl, fun hi => ?_⟩, fun pre post ls name s b => ⟨fun v => ?_, ?_, fun mask v l k => ?_⟩⟩
  · exact ⟨bufferOffset_toNat _ _ (by decide) hi, bufferOffset_toNat _ _ (by decide) hi,
      bufferOffset_toNat _ _ (by decide) hi⟩
  · exact hostTurn_of_step (line := ⟨ls, .wr name v⟩)
  · exact hostTurn_of_step (line := ⟨ls, .rd name⟩)
  · exact hostTurn_bnz

end Sys2Proof.Machine
end

section
/-! SUPPORT. Proofs of the statements about the issue, the completion and the overrun of commands (40_host_access.md): the
sequencer's turn, `CMD` writes, `NOP`, the illegal word, and the writes that the block ignores. -/

namespace Sys2Proof.Machine

/-! ## The end of a command (R104) -/

section Completion

variable (s : State) (code : ErrCode)

theorem complete_ended : Ended s (s.complete code) code := ⟨rfl, rfl, rfl, rfl, rfl, rfl, rfl⟩

theorem complete_hostSideKept : HostSideKept s (s.complete code) := ⟨rfl, rfl, rfl, rfl, rfl, rfl, rfl, rfl⟩

theorem complete_keysKept : KeysKept s (s.complete code) := ⟨rfl, rfl, rfl⟩

end Completion

theorem entriesKept_of_mem_eq {s t : State} (h : t.mem = s.mem) : EntriesKept s t := fun _ => h ▸ ⟨rfl, rfl, rfl⟩

/-- A command that answers a next state has ended, but a `KEYGEN_RAND` that waits for a draw (R172). -/
theorem execNext_waits_or_ended {i : Instr} {s t : State} (h : ExecNext i s t) :
    (i = .keygenRand ∧ t = s ∧ s.drawResult = .waiting) ∨ ∃ code, Ended s t code := by
  cases h with
  | waits hi hw => exact .inl ⟨hi, rfl, hw⟩
  | _ => exact .inr ⟨_, rfl, rfl, rfl, rfl, rfl, rfl, rfl⟩

/-- Settles O8, by the ways a command ends. -/
theorem commandsEndWithCompletionFlags : Obligations.CommandsEndWithCompletionFlags := by
  intro i s t h
  have hx := exec_next h
  exact (execNext_waits_or_ended hx).imp_right fun he => ⟨he, (execNext_hostSideKept hx).1⟩

/-! ## The sequencer's turn (R104, R107) -/

section SequencerTurn

variable {s : State}

theorem step_of_no_inputs (h : s.inputs = []) : step s = s.sequencerTurn := by
  simp only [step, State.nextStep, h]

/-- R107: a word outside the nine, in flight, is ended with `BAD_CMD`. -/
theorem sequencerTurn_of_illegal (hs : s.seq = .run) (hw : 0x9 ≤ s.latch.lw.toNat) :
    s.sequencerTurn = .next (s.complete .badCmd) := by
  obtain ⟨why, hd⟩ := exists_decode_illegal_iff.2 hw
  simp only [State.sequencerTurn, State.runLatched, hs, hd]
  rfl

end SequencerTurn

/-- Settles O4: the sequencer's turn comes by its event, or with no event left. -/
theorem stepRunsDecodedCommand : Obligations.StepRunsDecodedCommand := fun _ _ hs hd =>
  ⟨sequencerTurn_of_command hs hd, fun hi => (step_of_no_inputs hi).trans (sequencerTurn_of_command hs hd)⟩

/-- Settles O6, by the sequencer's turn of an idle block. -/
theorem idleSequencerChangesNothing : Obligations.IdleSequencerChangesNothing := fun _ => sequencerTurn_of_idle

/-! ## Placing a word of the opcode table (R103, A12) -/

theorem tableWord_toNat (w : Word) : tableWord 64 w.toNat = w := by
  rw [tableWord, Nat.mod_eq_of_lt w.isLt, wordOf, BitVec.ofNat_toNat, BitVec.setWidth_eq]

theorem decodeTableWord_toNat {w : Word} {i : Instr} (h : decode w = .command i) : decodeTableWord 64 w.toNat = some i := by
  simp only [decodeTableWord, Nat.mod_eq_of_lt w.isLt, w.isLt, if_true, tableWord_toNat, h]

theorem placeCommand_eq_upNext (s : State) (w : Word) : s.placeCommand w = (s.accept w).upNext .sequencer := rfl

/-- The sequencer's turn runs the command whose word has just been accepted. -/
theorem sequencerTurn_accept (s : State) (i : Instr) :
    (s.accept (encode i)).sequencerTurn = exec i (s.accept (encode i)) :=
  sequencerTurn_of_command (accept_seq s _) (by rw [accept_latch, decode_encode])

/-- Settles O5: a placed word is accepted, and the sequencer's turn follows. -/
theorem placedCommandRunsNext : Obligations.PlacedCommandRunsNext := by
  intro s i
  refine ⟨?_, decodeTableWord_toNat (decode_encode i)⟩
  rw [State.withFetchWord, tableWord_toNat, placeCommand_eq_upNext, step_upNext]
  exact sequencerTurn_accept s i

/-! ## A `CMD` write (R102, R103, R105) -/

section CommandIssue

variable {s : State}

theorem step_write_cmd_idle (w : Word) (hb : s.status.busy = false) :
    step (s.upNext (.host (.write 0x028#18 w))) = .next (State.accept { s with busResp := none } w) :=
  (step_write_reg s w .cmd).trans (congrArg _ (writeReg_cmd_of_idle hb))

theorem step_write_cmd_busy (w : Word) (hb : s.status.busy = true) :
    step (s.upNext (.host (.write 0x028#18 w))) = .next (State.overrun { s with busResp := none }) :=
  (step_write_reg s w .cmd).trans (congrArg _ (if_pos hb))

/-- An idle block accepts the word issued to it, and the sequencer's turn follows. -/
theorem issuedAndEnded_of_accept {w : Word} {t : State} (hb : s.status.busy = false)
    (h : State.sequencerTurn (State.accept { s with busResp := none } w) = .next t) : IssuedAndEnded s w t :=
  ⟨_, step_write_cmd_idle w hb, h⟩

end CommandIssue

/-- Settles O9: an idle block accepts the word. -/
theorem commandWriteIsAccepted : Obligations.CommandWriteIsAccepted := by
  intro s w hb
  refine ⟨_, step_write_cmd_idle w hb, ?_⟩
  simp [EntriesKept, Status.err, ErrCode.bits]

/-- Settles O10: a busy block overruns. -/
theorem commandWriteOverruns : Obligations.CommandWriteOverruns := by
  intro s w hb
  refine ⟨_, step_write_cmd_busy w hb, ?_⟩
  simp [EntriesKept, HostSideKept]

/-- Settles O7: the sequencer only completes an illegal word, in flight or just issued. -/
theorem illegalCommandCompletesBadCmd : Obligations.IllegalCommandCompletesBadCmd := by
  constructor
  · intro s hs hw
    exact ⟨_, sequencerTurn_of_illegal hs hw, complete_ended s _, rfl, rfl, complete_keysKept s _,
      entriesKept_of_mem_eq rfl, complete_hostSideKept s _⟩
  · intro s w hb hw
    exact ⟨_, issuedAndEnded_of_accept hb (sequencerTurn_of_illegal rfl hw), rfl, rfl, rfl, rfl, ⟨rfl, rfl, rfl⟩,
      entriesKept_of_mem_eq rfl⟩

/-- Settles O30: `NOP` only completes, in every state and just issued. -/
theorem nopOnlyCompletes : Obligations.NopOnlyCompletes := by
  constructor
  · intro s
    exact ⟨_, rfl, complete_ended s _, rfl, complete_keysKept s _, entriesKept_of_mem_eq rfl, complete_hostSideKept s _⟩
  · intro s hb
    exact ⟨_, issuedAndEnded_of_accept hb (sequencerTurn_accept _ .nop), rfl, rfl, rfl, rfl,
      ⟨rfl, rfl, rfl⟩, entriesKept_of_mem_eq rfl⟩

/-! ## Writes that the block ignores (R101) -/

/-- The read-only registers, in the order of R20. -/
def Reg.readOnly : List Reg := [.id, .cfg, .status, .res, .draws, .keyP, .keyQ, .keyN, .keyPhi, .keyE, .keyD]

theorem writeReg_of_readOnly {r : Reg} (h : r ∈ Reg.readOnly) (s : State) (v : Word) : s.writeReg v r = s := by
  cases r with
  | ctrl | irqStatus | cmd | opa | opb | opc | msgLen => simp [Reg.readOnly] at h
  | _ => rfl

/-- Settles O19: the offsets are those of the read-only registers and of the entries of `DEC_BUF`. -/
theorem readOnlyWritesAreIgnored : Obligations.ReadOnlyWritesAreIgnored := by
  rintro s off v (hr | ⟨i, hi, ho⟩)
  · change off ∈ Reg.readOnly.map Reg.offset at hr
    obtain ⟨r, hro, rfl⟩ := List.mem_map.1 hr
    exact (step_write_reg s v r).trans (congrArg _ (writeReg_of_readOnly hro _ v))
  · exact hostWrite_of_locate v (locate_of_dec s.cfg off i hi ho)

end Sys2Proof.Machine
end

section
/-! SUPPORT. Proofs of the statements about the primality tester (41_primality.md), with what a completion that writes
`RES` leaves unchanged (R35). -/

namespace Sys2Proof.Machine

/-! ## The completion that writes `RES` (R35) -/

section CompleteRes

variable (s : State) (v : Word)

theorem completeRes_ended : Ended s (s.completeRes v) .ok := complete_ended { s with res := v } .ok

theorem completeRes_keysKept : KeysKept s (s.completeRes v) := complete_keysKept { s with res := v } .ok

theorem completeRes_entriesKept : EntriesKept s (s.completeRes v) := entriesKept_of_mem_eq (completeRes_mem s v)

theorem completeRes_hostSideKept : HostSideKept s (s.completeRes v) := complete_hostSideKept { s with res := v } .ok

end CompleteRes

/-! ## `PRIME_TEST` (R131) -/

theorem exec_primeTest (s : State) :
    exec .primeTest s = .next (s.completeRes (wordOf (bitNat (isPrime s.opndA)))) := rfl

theorem wordOf_isPrime_of_prime {n : Nat} (h : n.Prime) : wordOf (bitNat (isPrime n)) = 1#64 := by
  rw [(isPrime_iff_prime n).2 h]
  rfl

theorem wordOf_isPrime_of_not_prime {n : Nat} (h : ¬ n.Prime) : wordOf (bitNat (isPrime n)) = 0#64 := by
  rw [Bool.eq_false_iff.2 (mt (isPrime_iff_prime n).1 h)]
  rfl

/-- Settles O31: `RES` is the bit that trial division answers, which decides primality; the rest is the completion. -/
theorem primeTestDecidesPrimality : Obligations.PrimeTestDecidesPrimality := fun s =>
  ⟨_, exec_primeTest s, wordOf_isPrime_of_prime, wordOf_isPrime_of_not_prime, completeRes_ended s _,
    completeRes_keysKept s _, completeRes_entriesKept s _, completeRes_hostSideKept s _⟩

end Sys2Proof.Machine
end

section
/-! SUPPORT. Proofs of the statements about the number theory kernel (42_number_theory.md): `GCD` and `MODINV`. -/

namespace Sys2Proof.Machine

/-! ## `GCD` (R140, R141) -/

theorem gcd_lt_of_lt {a b k : Nat} (ha : a < k) (hb : b < k) : Nat.gcd a b < k := by
  rcases b.eq_zero_or_pos with rfl | hpos
  · rwa [Nat.gcd_zero_right]
  · exact (Nat.gcd_le_right a hpos).trans_lt hb

theorem wordOf_gcdValue_toNat (a b : Word) : (wordOf (gcdValue a.toNat b.toNat)).toNat = Nat.gcd a.toNat b.toNat := by
  rw [gcdValue_eq_gcd, wordOf_toNat (gcd_lt_of_lt a.isLt b.isLt)]

theorem exec_gcd (s : State) : exec .gcd s = .next (s.completeRes (wordOf (gcdValue s.opndA s.opndB))) := rfl

/-- Settles O32: `RES` is the value of Euclid's loop, which fits in a word; the rest is the completion. -/
theorem gcdIsTheGreatestCommonDivisor : Obligations.GcdIsTheGreatestCommonDivisor := fun s =>
  ⟨_, exec_gcd s, wordOf_gcdValue_toNat _ _, completeRes_ended s _, completeRes_keysKept s _,
    completeRes_entriesKept s _, completeRes_hostSideKept s _⟩

/-! ## `MODINV` (R145, R146) -/

/-- The inverse fits in a word, so `RES` holds it whole. -/
theorem wordOf_modInvValue_spec {e phi : Word} (hphi : 2 ≤ phi.toNat) (hg : Nat.gcd e.toNat phi.toNat = 1) :
    (wordOf (modInvValue e.toNat phi.toNat)).toNat < phi.toNat ∧
      e.toNat * (wordOf (modInvValue e.toNat phi.toNat)).toNat % phi.toNat = 1 := by
  obtain ⟨hinv, hlt⟩ := modInvValue_spec e.toNat phi.toNat hphi hg
  rw [wordOf_toNat (hlt.trans phi.isLt)]
  exact ⟨hlt, hinv⟩

section ModinvOutcomes

variable {s : State}

theorem exec_modinv_of_modulus_one (h1 : s.opndB = 1) : exec .modinv s = .next (s.completeRes 0#64) := if_pos h1

theorem exec_modinv_of_modulus_zero (h0 : s.opndB = 0) : exec .modinv s = .next (s.complete .divZero) := by
  simp only [exec, execModinv, h0, State.raiseErr, zero_ne_one, if_false, if_true]

theorem exec_modinv_of_not_coprime (h1 : s.opndB ≠ 1) (h0 : s.opndB ≠ 0) (hg : Nat.gcd s.opndA s.opndB ≠ 1) :
    exec .modinv s = .next (s.complete .notCoprime) := by
  rw [← gcdValue_eq_gcd] at hg
  simp only [exec, execModinv, State.raiseErr, if_neg h1, if_neg h0, if_pos hg]

theorem exec_modinv_of_coprime (h1 : s.opndB ≠ 1) (h0 : s.opndB ≠ 0) (hg : Nat.gcd s.opndA s.opndB = 1) :
    exec .modinv s = .next (s.completeRes (wordOf (modInvValue s.opndA s.opndB))) := by
  rw [← gcdValue_eq_gcd] at hg
  simp only [exec, execModinv, if_neg h1, if_neg h0, if_neg (not_not_intro hg)]

end ModinvOutcomes

/-- Settles O33, by the outcomes of `MODINV` in the order of its checks. -/
theorem modinvChecksThenInverts : Obligations.ModinvChecksThenInverts := by
  intro s
  split_ifs with h1 h0 hg
  · exact ⟨_, exec_modinv_of_modulus_one h1, completeRes_keysKept s _, completeRes_entriesKept s _,
      completeRes_hostSideKept s _, completeRes_ended s _, rfl⟩
  · exact ⟨_, exec_modinv_of_modulus_zero h0, complete_keysKept s _, entriesKept_of_mem_eq rfl,
      complete_hostSideKept s _, complete_ended s _, rfl⟩
  · exact ⟨_, exec_modinv_of_not_coprime h1 h0 hg, complete_keysKept s _, entriesKept_of_mem_eq rfl,
      complete_hostSideKept s _, complete_ended s _, rfl⟩
  · exact ⟨_, exec_modinv_of_coprime h1 h0 (not_not.1 hg), completeRes_keysKept s _, completeRes_entriesKept s _,
      completeRes_hostSideKept s _, completeRes_ended s _, wordOf_modInvValue_spec (by omega) (not_not.1 hg)⟩

end Sys2Proof.Machine
end

section
/-! SUPPORT. Proof of the statement about the modular exponentiator (43_modexp.md): `MODEXP`. -/

namespace Sys2Proof.Machine

/-! ## `MODEXP` (R161, R162) -/

/-- The accumulator is not reduced when no pass runs, so the modulus does not matter (R162). -/
theorem wordOf_modExpValue_of_exponent_zero (b m : Nat) {x : Nat} (hx : x = 0) :
    wordOf (modExpValue b x m) = 1#64 := by
  rw [hx, modExpValue_zero]
  rfl

/-- The power modulo the modulus fits in a word, so `RES` holds it whole. -/
theorem wordOf_modExpValue_toNat (b : Nat) {x : Nat} {m : Word} (hm : m.toNat ≠ 0) (hx : x ≠ 0) :
    (wordOf (modExpValue b x m.toNat)).toNat = b ^ x % m.toNat := by
  have hlt : b ^ x % m.toNat < m.toNat := Nat.mod_lt _ (Nat.pos_of_ne_zero hm)
  rw [modExpValue_eq_pow_mod b x _ hx, wordOf_toNat (hlt.trans m.isLt)]

section ModexpOutcomes

variable {s : State}

theorem exec_modexp_of_modulus_zero (h0 : s.opndC = 0) : exec .modexp s = .next (s.complete .divZero) := if_pos h0

theorem exec_modexp_of_modulus_ne_zero (h0 : s.opndC ≠ 0) :
    exec .modexp s = .next (s.completeRes (wordOf (modExpValue s.opndA s.opndB s.opndC))) := if_neg h0

end ModexpOutcomes

/-- Settles O34, by the two outcomes of `MODEXP`: with a modulus, `RES` is the value of the exponentiation loop. -/
theorem modexpIsThePowerModulo : Obligations.ModexpIsThePowerModulo := by
  intro s
  split_ifs with h0
  · exact ⟨_, exec_modexp_of_modulus_zero h0, complete_keysKept s _, entriesKept_of_mem_eq rfl,
      complete_hostSideKept s _, complete_ended s _, rfl⟩
  · exact ⟨_, exec_modexp_of_modulus_ne_zero h0, completeRes_keysKept s _, completeRes_entriesKept s _,
      completeRes_hostSideKept s _, completeRes_ended s _, wordOf_modExpValue_of_exponent_zero _ _,
      wordOf_modExpValue_toNat _ h0⟩

end Sys2Proof.Machine
end

section
/-! SUPPORT. Proofs of the statements about the key generation pipeline (44_keygen.md): the two ends of a key generation,
the draw loops, `KEYGEN_RAND` and `KEYGEN_FORCED`. -/

namespace Sys2Proof.Machine

/-! ## The two ends of a key generation (R177, R178) -/

section KeygenEnds

variable (s : State) (code : ErrCode) (drawn : Nat) (k : KeyRegs)

theorem keySucceed_ended : Ended s (s.keySucceed drawn k) .ok := ⟨rfl, rfl, rfl, rfl, rfl, rfl, rfl⟩

theorem keySucceed_entriesKept : EntriesKept s (s.keySucceed drawn k) := entriesKept_of_mem_eq (keySucceed_mem s drawn k)

theorem keySucceed_hostSideKept : HostSideKept s (s.keySucceed drawn k) := ⟨rfl, rfl, rfl, rfl, rfl, rfl, rfl, rfl⟩

theorem keyFail_ended : Ended s (s.keyFail code drawn k) code := ⟨rfl, rfl, rfl, rfl, rfl, rfl, rfl⟩

theorem keyFail_entriesKept : EntriesKept s (s.keyFail code drawn k) :=
  entriesKept_of_mem_eq (keyFail_mem s code drawn k)

theorem keyFail_hostSideKept : HostSideKept s (s.keyFail code drawn k) := ⟨rfl, rfl, rfl, rfl, rfl, rfl, rfl, rfl⟩

theorem keyFail_zero_failedAs : KeyFailedAs 0 0 0 0 (s.keyFail code drawn KeyRegs.zero).keys :=
  ⟨rfl, rfl, rfl, rfl, rfl, rfl⟩

theorem keyFail_partialKey_failedAs {p q n phi : Nat} (hp : p < 2 ^ 64) (hq : q < 2 ^ 64) (hn : n < 2 ^ 64)
    (hphi : phi < 2 ^ 64) : KeyFailedAs p q n phi (s.keyFail code drawn (partialKey p q n phi)).keys :=
  ⟨wordOf_toNat hp, wordOf_toNat hq, wordOf_toNat hn, wordOf_toNat hphi, rfl, rfl⟩

end KeygenEnds

/-! ## The key of two primes (R170) -/

/-- The key registers hold the key whole; the exponent scan stops at the first value coprime with φ (R179). -/
theorem tailKey_keyOf {p q : Nat} (hp : p.Prime) (hq : q.Prime) (hne : p ≠ q) (hpw : p < 2 ^ 32) (hqw : q < 2 ^ 32)
    (h : 255 < p * q) : KeyOf p q (tailKey p q) := by
  have hk := tailKey_keyInv hp hq hne hpw hqw h
  have ep : (tailKey p q).p.toNat = p := wordOf_toNat (by omega)
  have eq : (tailKey p q).q.toNat = q := wordOf_toNat (by omega)
  have ephi : (tailKey p q).phi.toNat = (p - 1) * (q - 1) := by rw [hk.totient, ep, eq]
  have hphi : (p - 1) * (q - 1) < 2 ^ 64 := ephi ▸ (tailKey p q).phi.isLt
  obtain ⟨hge, hlt, -, hleast⟩ := scanExponent_found (phi := (p - 1) * (q - 1))
    (by have := totient_large hp hq h; omega)
  have ee : (tailKey p q).e.toNat = scanExponent ((p - 1) * (q - 1)) ((p - 1) * (q - 1)) 3 :=
    wordOf_toNat (hlt.trans hphi)
  refine ⟨ep, eq, by rw [hk.modulus, ep, eq], ephi, ee ▸ hge, hk.eRange.2, hk.coprime, ?_, hk.inverse, hk.dRange⟩
  rw [ee, ephi]
  exact hleast

/-! ## The draw loops (R171, R173) -/

section DrawLoop

variable {maxDraws drawn p : Nat}

theorem drawLoop_at_bound (maxDraws : Nat) (answers : List Word) (p : Nat) :
    drawLoop maxDraws answers maxDraws p = .failed .drawsExhausted maxDraws p := by
  unfold drawLoop
  exact if_pos rfl

theorem drawLoop_of_no_answer (p : Nat) (hd : drawn ≠ maxDraws) : drawLoop maxDraws [] drawn p = .waiting := by
  unfold drawLoop
  exact if_neg hd

theorem drawLoop_out_of_range {r : Word} (rest : List Word) (p : Nat) (hd : drawn ≠ maxDraws)
    (hr : r.toNat < 100 ∨ 1000 < r.toNat) :
    drawLoop maxDraws (r :: rest) drawn p = .failed .rngRange (drawn + 1) p := by
  rw [drawLoop, if_neg hd]
  exact if_pos hr

/-- Rejected draws, the first prime and rejected draws again lead into the second loop. -/
theorem drawLoop_in_second_loop {xs ys : List Word} {p : Word} (rest : List Word)
    (hd : xs.length + ys.length + 1 ≤ maxDraws) (hxs : ∀ r ∈ xs, rejectedDraw 0 r) (hp : drawnPrime p.toNat)
    (hys : ∀ r ∈ ys, rejectedDraw p.toNat r) :
    drawLoop maxDraws (xs ++ p :: (ys ++ rest)) 0 0 = drawLoop maxDraws rest (xs.length + ys.length + 1) p.toNat := by
  rw [drawLoop_rejected _ _ _ _ _ hxs (by omega), drawLoop_first_prime _ _ _ _ hp (by omega),
    drawLoop_rejected _ _ _ _ _ hys (by omega)]
  congr 1
  omega

end DrawLoop

theorem drawResult_sound (s : State) : s.drawResult.sound s.cfg.maxDraws :=
  drawLoop_sound _ _ 0 0 (Nat.zero_le _) (.inl rfl)

theorem drawnPrime.lt_two_pow_32 {p : Nat} (hp : drawnPrime p) : p < 2 ^ 32 := by
  have := hp.2.2
  omega

theorem drawnPrime.eq_101_or_ge_103 {p : Nat} (hp : drawnPrime p) : p = 101 ∨ 103 ≤ p := by
  obtain ⟨hprime, hlo, -⟩ := hp
  have h100 : p ≠ 100 := by
    rintro rfl
    exact absurd hprime (by norm_num)
  have h102 : p ≠ 102 := by
    rintro rfl
    exact absurd hprime (by norm_num)
  omega

/-- R181: the least modulus of two different drawn primes is 101 · 103. -/
theorem drawnPrime_mul_ge {p q : Nat} (hp : drawnPrime p) (hq : drawnPrime q) (hne : p ≠ q) : 10403 ≤ p * q := by
  rcases hp.eq_101_or_ge_103 with rfl | hp'
  · have hq' : 103 ≤ q := hq.eq_101_or_ge_103.resolve_left hne.symm
    omega
  · have hq' : 101 ≤ q := by have := hq.eq_101_or_ge_103; omega
    exact Nat.mul_le_mul hp' hq'

/-! ## `KEYGEN_RAND` (R171 to R173) -/

section KeygenRand

variable {s : State} {code : ErrCode} {p q drawn : Nat}

theorem exec_keygenRand_of_waiting (h : s.drawResult = .waiting) : exec .keygenRand s = .next s := by
  simp only [exec, execKeygenRand, h]

theorem exec_keygenRand_of_failed (h : s.drawResult = .failed code drawn p) :
    exec .keygenRand s = .next (s.keyFail code drawn (partialKey p 0 0 0)) := by
  simp only [exec, execKeygenRand, h]

/-- Two drawn primes always pass the modulus gate and the exponent scan. -/
theorem exec_keygenRand_of_primes (h : s.drawResult = .primes p q drawn) :
    exec .keygenRand s = .next (s.keySucceed drawn (tailKey p q)) := by
  have hsound := drawResult_sound s
  rw [h] at hsound
  obtain ⟨hp, hq, -, -⟩ := hsound
  simp only [exec, execKeygenRand, h, keyTail_success drawn s hp.1 hq.1 (drawnPrime_mul_gt hp hq)]

theorem tailKey_keyOf_of_drawn (hp : drawnPrime p) (hq : drawnPrime q) (hne : p ≠ q) : KeyOf p q (tailKey p q) :=
  tailKey_keyOf hp.1 hq.1 hne hp.lt_two_pow_32 hq.lt_two_pow_32 (drawnPrime_mul_gt hp hq)

/-- The count of draws fits in `DRAWS` (R37). -/
theorem wordOf_drawn_toNat {c : Params} (h : drawn ≤ c.maxDraws) : (wordOf drawn).toNat = drawn :=
  wordOf_toNat (by have := maxDraws_le c; omega)

theorem exec_keygenRand_succeeds (h : s.drawResult = .primes p q drawn) :
    ∃ t, exec .keygenRand s = .next t ∧ Ended s t .ok ∧ t.status.keyValid = true ∧ KeyOf p q t.keys ∧
      t.draws.toNat = drawn ∧ t.res = s.res ∧ EntriesKept s t ∧ HostSideKept s t := by
  have hsound := drawResult_sound s
  rw [h] at hsound
  obtain ⟨hp, hq, hne, hd⟩ := hsound
  exact ⟨_, exec_keygenRand_of_primes h, keySucceed_ended s _ _, rfl, tailKey_keyOf_of_drawn hp hq hne,
    wordOf_drawn_toNat hd, rfl, keySucceed_entriesKept s _ _, keySucceed_hostSideKept s _ _⟩

theorem exec_keygenRand_fails (h : s.drawResult = .failed code drawn p) :
    ∃ t, exec .keygenRand s = .next t ∧ Ended s t code ∧ t.status.keyValid = false ∧ KeyFailedAs p 0 0 0 t.keys ∧
      t.draws.toNat = drawn ∧ t.res = s.res ∧ EntriesKept s t ∧ HostSideKept s t := by
  have hsound := drawResult_sound s
  rw [h] at hsound
  obtain ⟨-, hd, hp⟩ := hsound
  have hpw : p < 2 ^ 64 := by
    rcases hp with rfl | hp
    · omega
    · have := hp.lt_two_pow_32
      omega
  exact ⟨_, exec_keygenRand_of_failed h, keyFail_ended s _ _ _, rfl,
    keyFail_partialKey_failedAs s _ _ hpw (by omega) (by omega) (by omega), wordOf_drawn_toNat hd, rfl,
    keyFail_entriesKept s _ _ _, keyFail_hostSideKept s _ _ _⟩

end KeygenRand

/-- Settles O37: the draws lead into the second loop, which ends with the second prime. -/
theorem keygenRandSucceeds : Obligations.KeygenRandSucceeds := by
  intro s xs ys zs p q hs hd hxs hp hys hq hne
  have hp0 : p.toNat ≠ 0 := hp.1.ne_zero
  have hqp : q.toNat ≠ p.toNat := fun e => hne (BitVec.eq_of_toNat_eq e)
  apply exec_keygenRand_succeeds
  rw [State.drawResult, hs, drawLoop_in_second_loop _ (by omega) hxs hp hys]
  exact drawLoop_second_prime _ _ _ _ _ hq hp0 hqp (by omega)

/-- Settles O38: in each loop, rejected draws lead to the draw out of range or to the bound. -/
theorem keygenRandFails : Obligations.KeygenRandFails := by
  intro s
  refine ⟨fun xs zs r hs hd hxs hr => ?_, fun xs ys zs p r hs hd hxs hp hys hr => ?_, fun xs zs hs hd hxs => ?_,
    fun xs ys zs p hs hd hxs hp hys => ?_⟩
  all_goals
    apply exec_keygenRand_fails
    rw [State.drawResult, hs]
  · rw [drawLoop_rejected _ _ _ _ _ hxs (by omega), Nat.zero_add]
    exact drawLoop_out_of_range _ _ (by omega) hr
  · rw [drawLoop_in_second_loop _ (by omega) hxs hp hys]
    exact drawLoop_out_of_range _ _ (by omega) hr
  · rw [drawLoop_rejected _ _ _ _ _ hxs (by omega), Nat.zero_add, hd]
    exact drawLoop_at_bound _ _ _
  · rw [drawLoop_in_second_loop _ (by omega) hxs hp hys, hd]
    exact drawLoop_at_bound _ _ _

/-! ## The random source's answers (R172) -/

section Answers

variable {s : State}

theorem awaitsDraw_eq_true_iff (s : State) :
    s.awaitsDraw = true ↔ s.inFlight .keygenRand = true ∧ s.drawResult = .waiting := by
  simp [State.awaitsDraw]

theorem rngAnswer_of_awaitsDraw (h : s.awaitsDraw = true) (v : Word) :
    s.rngAnswer v = { s with rngAnswers := s.rngAnswers ++ [v] } := if_pos h

theorem rngAnswer_of_not_awaitsDraw (h : s.awaitsDraw = false) (v : Word) : s.rngAnswer v = s := by
  simp [State.rngAnswer, h]

/-- Below the bound, draws that are all rejected, or one prime followed by rejected ones, leave the loops waiting. -/
theorem drawResult_waiting {xs ys : List Word} {p : Word} (hd : s.rngAnswers.length < s.cfg.maxDraws)
    (hs : s.rngAnswers = xs ∨ s.rngAnswers = xs ++ p :: ys ∧ drawnPrime p.toNat ∧ ∀ r ∈ ys, rejectedDraw p.toNat r)
    (hxs : ∀ r ∈ xs, rejectedDraw 0 r) : s.drawResult = .waiting := by
  rw [State.drawResult]
  rcases hs with hs | ⟨hs, hp, hys⟩
  · rw [hs] at hd ⊢
    rw [← List.append_nil xs, drawLoop_rejected _ _ _ _ _ hxs (by omega)]
    exact drawLoop_of_no_answer _ (by omega)
  · rw [hs, List.length_append, List.length_cons] at hd
    rw [hs, ← List.append_nil ys, drawLoop_in_second_loop _ (by omega) hxs hp hys]
    exact drawLoop_of_no_answer _ (by omega)

end Answers

/-- Settles O39: waiting draw loops change nothing at the sequencer's turn and ask for a draw, and only they ask. -/
theorem keygenRandWaitsForDraws : Obligations.KeygenRandWaitsForDraws := by
  refine ⟨fun s xs ys p hb hrun hdec hd hs hxs => ?_, fun s v h => ?_, fun s h => ?_⟩
  · have hw : s.drawResult = .waiting := drawResult_waiting hd hs hxs
    have hask : s.awaitsDraw = true := (awaitsDraw_eq_true_iff s).2 ⟨(inFlight_eq_true_iff s _).2 ⟨hb, hdec⟩, hw⟩
    refine ⟨?_, fun v => congrArg _ (rngAnswer_of_awaitsDraw hask v)⟩
    exact (sequencerTurn_of_command hrun hdec).trans (exec_keygenRand_of_waiting hw)
  · exact congrArg _ (rngAnswer_of_not_awaitsDraw h v)
  · rw [Bool.eq_false_iff, ne_eq, awaitsDraw_eq_true_iff, inFlight_eq_true_iff]
    rintro ⟨⟨hb, hdec⟩, hw⟩
    rcases h with h | h | h
    · exact Bool.false_ne_true (h.symm.trans hb)
    · exact h hdec
    · exact h (exec_keygenRand_of_waiting hw)

/-! ## `KEYGEN_FORCED` (R175, R176) -/

/-- The operand pairs that R175 accepts. -/
def ForcedPrimes (p q : Nat) : Prop := p < 2 ^ 32 ∧ q < 2 ^ 32 ∧ p.Prime ∧ q.Prime ∧ p ≠ q

theorem badForcedPrimes_eq_false_iff {p q : Nat} : badForcedPrimes p q = false ↔ ForcedPrimes p q := by
  simp only [badForcedPrimes, ForcedPrimes, Config.forcedPrimeBits, Bool.or_eq_false_iff, decide_eq_false_iff_not,
    not_le, Bool.not_eq_false', beq_eq_false_iff_ne, isPrime_iff_prime, and_assoc, ne_eq]

section KeygenForced

variable {s : State}

theorem exec_keygenForced_of_rejected (h : ¬ ForcedPrimes s.opndA s.opndB) :
    exec .keygenForced s = .next (s.keyFail .badForcedPrimes 0 KeyRegs.zero) := by
  rw [← badForcedPrimes_eq_false_iff, Bool.not_eq_false] at h
  exact if_pos h

theorem exec_keygenForced_of_accepted (h : ForcedPrimes s.opndA s.opndB) :
    exec .keygenForced s = .next (keyTail s.opndA s.opndB 0 s) := by
  rw [← badForcedPrimes_eq_false_iff, ← Bool.not_eq_true] at h
  exact if_neg h

theorem exec_keygenForced_of_small (h : ForcedPrimes s.opndA s.opndB) (hn : s.opndA * s.opndB ≤ 255) :
    exec .keygenForced s = .next (s.keyFail .modulusTooSmall 0
      (partialKey s.opndA s.opndB (s.opndA * s.opndB) ((s.opndA - 1) * (s.opndB - 1)))) := by
  rw [exec_keygenForced_of_accepted h, keyTail_small 0 s hn]

theorem exec_keygenForced_of_large (h : ForcedPrimes s.opndA s.opndB) (hn : 255 < s.opndA * s.opndB) :
    exec .keygenForced s = .next (s.keySucceed 0 (tailKey s.opndA s.opndB)) := by
  obtain ⟨-, -, hp, hq, -⟩ := id h
  rw [exec_keygenForced_of_accepted h, keyTail_success 0 s hp hq hn]

end KeygenForced

/-- Settles O36, by the three outcomes of `KEYGEN_FORCED`. -/
theorem keygenForcedOutcome : Obligations.KeygenForcedOutcome := by
  intro s p q
  split_ifs with hf hn
  · have hphi : (p - 1) * (q - 1) ≤ p * q := Nat.mul_le_mul (Nat.sub_le p 1) (Nat.sub_le q 1)
    exact ⟨_, exec_keygenForced_of_small hf hn, rfl, rfl, keyFail_entriesKept s _ _ _,
      keyFail_hostSideKept s _ _ _, keyFail_ended s _ _ _, rfl,
      keyFail_partialKey_failedAs s _ _ s.latch.la.isLt s.latch.lb.isLt (by omega) (by omega)⟩
  · obtain ⟨hpw, hqw, hp, hq, hne⟩ := id hf
    exact ⟨_, exec_keygenForced_of_large hf (not_le.1 hn), rfl, rfl, keySucceed_entriesKept s _ _,
      keySucceed_hostSideKept s _ _, keySucceed_ended s _ _, rfl, tailKey_keyOf hp hq hne hpw hqw (not_le.1 hn)⟩
  · exact ⟨_, exec_keygenForced_of_rejected hf, rfl, rfl, keyFail_entriesKept s _ _ _, keyFail_hostSideKept s _ _ _,
      keyFail_ended s _ _ _, rfl, keyFail_zero_failedAs s _ _⟩

/-! ## The errors a key generation can report (R181) -/

section Errors

variable {s t : State}

theorem exec_keygenRand_errcode (h : exec .keygenRand s = .next t) :
    t = s ∨ (t.status.errcode = .ok ∧ 10403 ≤ t.keys.n.toNat) ∨ t.status.errcode = .drawsExhausted ∨
      t.status.errcode = .rngRange := by
  have hsound := drawResult_sound s
  cases hd : s.drawResult with
  | waiting =>
    cases h.symm.trans (exec_keygenRand_of_waiting hd)
    exact .inl rfl
  | failed code n p =>
    rw [hd] at hsound
    cases h.symm.trans (exec_keygenRand_of_failed hd)
    exact .inr (.inr hsound.1)
  | primes p q n =>
    rw [hd] at hsound
    obtain ⟨hp, hq, hne, -⟩ := hsound
    obtain ⟨-, -, hn, -⟩ := tailKey_keyOf_of_drawn hp hq hne
    cases h.symm.trans (exec_keygenRand_of_primes hd)
    exact .inr (.inl ⟨rfl, (drawnPrime_mul_ge hp hq hne).trans_eq hn.symm⟩)

theorem exec_keygenForced_errcode (h : exec .keygenForced s = .next t) :
    t.status.errcode ≠ .noCoprimeExponent ∧
      (t.status.errcode = .modulusTooSmall ↔ ForcedPrimes s.opndA s.opndB ∧ s.opndA * s.opndB ≤ 255) := by
  by_cases hf : ForcedPrimes s.opndA s.opndB
  · rcases Nat.lt_or_ge 255 (s.opndA * s.opndB) with hn | hn
    · cases h.symm.trans (exec_keygenForced_of_large hf hn)
      simp [hn]
    · cases h.symm.trans (exec_keygenForced_of_small hf hn)
      simp [hf, hn]
  · cases h.symm.trans (exec_keygenForced_of_rejected hf)
    simp [hf]

end Errors

/-- Settles O40, by the ways each key generation ends. -/
theorem keygenErrorReachability : Obligations.KeygenErrorReachability := by
  refine ⟨fun s t h => exec_keygenRand_errcode h, fun s t h => ?_⟩
  obtain ⟨hne, hiff⟩ := exec_keygenForced_errcode h
  refine ⟨hne, hiff.trans ?_⟩
  simp only [ForcedPrimes, and_assoc]

end Sys2Proof.Machine
end

section
/-! SUPPORT. Proofs of the statements about the byte-sequential cipher (45_cipher.md): `ENCRYPT`, `DECRYPT`, and the round
trip under a key that meets R44. -/

namespace Sys2Proof.Machine

/-! ## What the cipher loops store (R190 to R192) -/

/-- `out'` is `out` with the first `len` entries replaced by the powers of the entries of `inp` (R190). -/
structure CipherStored {w : Nat} (inp : List (Nat × BitVec w)) (exp n len : Nat) (out out' : List (Nat × Word)) : Prop where
  below : ∀ {i x}, i < len → bufGet inp i = some x → bufGet out' i = some (wordOf (modExpValue x.toNat exp n))
  above : ∀ {i}, len ≤ i → bufGet out' i = bufGet out i

section CipherLoops

variable {exp n k : Nat} (out : List (Nat × Word))

/-- The form in which the case lemmas of the loops give the entries, for a loop that begins at entry 0. -/
theorem cipherStored_of_get {w : Nat} {inp : List (Nat × BitVec w)} {out out' : List (Nat × Word)}
    (hget : ∀ j, bufGet out' j = if 0 ≤ j ∧ j < 0 + k
      then (bufGet inp j).map (fun x => wordOf (modExpValue x.toNat exp n)) else bufGet out j) :
    CipherStored inp exp n k out out' where
  below hi hx := by rw [hget, if_pos (by omega), hx, Option.map_some]
  above hi := by rw [hget, if_neg (by omega)]

theorem encryptLoop_of_written {msg : List Host.Cell} (hw : ∀ i, i < k → (bufGet msg i).isSome) :
    ∃ out', encryptLoop msg exp n k 0 out = .ok out' ∧ CipherStored msg exp n k out out' := by
  obtain ⟨out', hrun, -, hget, -, -⟩ | ⟨j, -, hj, hnone, -, -⟩ := encryptLoop_cases msg exp n k 0 out
  · exact ⟨out', hrun, cipherStored_of_get hget⟩
  · simpa [hnone] using hw j (by omega)

theorem decryptLoop_of_written {ct : List (Nat × Word)} (hw : ∀ i, i < k → (bufGet ct i).isSome) :
    ∃ out', decryptLoop ct exp n k 0 out = .ok out' ∧ CipherStored ct exp n k out out' := by
  obtain ⟨out', hrun, -, hget, -, -⟩ | ⟨j, -, hj, hnone, -, -⟩ := decryptLoop_cases ct exp n k 0 out
  · exact ⟨out', hrun, cipherStored_of_get hget⟩
  · simpa [hnone] using hw j (by omega)

end CipherLoops

/-! ## How the cipher commands end (R191 to R193) -/

section CipherEnds

variable {s : State}

theorem cipherEnd_of_no_key (run : Except Fault Memory) (hk : s.status.keyValid = false) :
    s.cipherEnd run = .next (s.complete .noKey) := if_pos hk

theorem cipherEnd_of_long (run : Except Fault Memory) (hk : s.status.keyValid = true) (hl : s.cfg.msgMax < s.opndLen) :
    s.cipherEnd run = .next (s.complete .msgLen) :=
  (if_neg (by simp [hk])).trans (if_pos hl)

theorem cipherEnd_of_ok {m : Memory} (hk : s.status.keyValid = true) (hl : s.opndLen ≤ s.cfg.msgMax) :
    s.cipherEnd (.ok m) = .next (State.complete { s with mem := m } .ok) :=
  (if_neg (by simp [hk])).trans (if_neg (not_lt.2 hl))

/-- A failed check is a completion and nothing else: no entry is written (R193). -/
theorem complete_only_ends (s : State) (code : ErrCode) :
    Ended s (s.complete code) code ∧ EntriesKept s (s.complete code) ∧ (s.complete code).res = s.res ∧
      KeysKept s (s.complete code) ∧ HostSideKept s (s.complete code) :=
  ⟨complete_ended s code, entriesKept_of_mem_eq rfl, rfl, complete_keysKept s code, complete_hostSideKept s code⟩

theorem exec_encrypt_of_written (hk : s.status.keyValid = true) (hl : s.opndLen ≤ s.cfg.msgMax)
    (hw : ∀ i, i < s.opndLen → (bufGet s.mem.msg i).isSome) :
    ∃ ct, exec .encrypt s = .next (State.complete { s with mem := { s.mem with ct := ct } } .ok) ∧
      CipherStored s.mem.msg s.opndKeyE s.opndKeyN s.opndLen s.mem.ct ct := by
  obtain ⟨ct, hrun, hst⟩ := encryptLoop_of_written s.mem.ct hw
  exact ⟨ct, by rw [exec_encrypt_eq, State.encryptRun, hrun]; exact cipherEnd_of_ok hk hl, hst⟩

theorem exec_decrypt_of_written (hk : s.status.keyValid = true) (hl : s.opndLen ≤ s.cfg.msgMax)
    (hw : ∀ i, i < s.opndLen → (bufGet s.mem.ct i).isSome) :
    ∃ dec, exec .decrypt s = .next (State.complete { s with mem := { s.mem with dec := dec } } .ok) ∧
      CipherStored s.mem.ct s.opndKeyD s.opndKeyN s.opndLen s.mem.dec dec := by
  obtain ⟨dec, hrun, hst⟩ := decryptLoop_of_written s.mem.dec hw
  exact ⟨dec, by rw [exec_decrypt_eq, State.decryptRun, hrun]; exact cipherEnd_of_ok hk hl, hst⟩

end CipherEnds

/-- Settles O43, by the three ends of the command: a failed check only completes, and the loop stores the powers. -/
theorem encryptOutcome : Obligations.EncryptOutcome := by
  refine fun s => ⟨fun hk => ?_, fun hk hl => ?_, fun hk hl hw he hn => ?_⟩
  · exact ⟨_, (exec_encrypt_eq s).trans (cipherEnd_of_no_key _ hk), complete_only_ends s _⟩
  · exact ⟨_, (exec_encrypt_eq s).trans (cipherEnd_of_long _ hk hl), complete_only_ends s _⟩
  · obtain ⟨ct, hx, hst⟩ := exec_encrypt_of_written hk hl hw
    exact ⟨_, hx, complete_ended { s with mem := _ } _, rfl, complete_keysKept { s with mem := _ } _,
      complete_hostSideKept { s with mem := _ } _,
      fun i b hi hb => ⟨_, hst.below hi hb, wordOf_modExpValue_toNat _ hn he⟩,
      fun i => ⟨hst.above, rfl, rfl⟩⟩

/-- Settles O44, as `ENCRYPT`: the loop reads `CT_BUF` and stores full values. -/
theorem decryptOutcome : Obligations.DecryptOutcome := by
  refine fun s => ⟨fun hk => ?_, fun hk hl => ?_, fun hk hl hw hd hn => ?_⟩
  · exact ⟨_, (exec_decrypt_eq s).trans (cipherEnd_of_no_key _ hk), complete_only_ends s _⟩
  · exact ⟨_, (exec_decrypt_eq s).trans (cipherEnd_of_long _ hk hl), complete_only_ends s _⟩
  · obtain ⟨dec, hx, hst⟩ := exec_decrypt_of_written hk hl hw
    exact ⟨_, hx, complete_ended { s with mem := _ } _, rfl, complete_keysKept { s with mem := _ } _,
      complete_hostSideKept { s with mem := _ } _,
      fun i c hi hc => ⟨_, hst.below hi hc, wordOf_modExpValue_toNat _ hn hd⟩,
      fun i => ⟨hst.above, rfl, rfl⟩⟩

/-! ## The round trip of values (R194) -/

/-- Fermat's little theorem for every base: a multiple of `p` stays one, and any other base has `v ^ (p - 1) ≡ 1`. -/
theorem pow_modEq_self_of_prime {p : Nat} (hp : p.Prime) (v k : Nat) : v ^ ((p - 1) * k + 1) ≡ v [MOD p] := by
  by_cases hdvd : p ∣ v
  · have hzero : v ≡ 0 [MOD p] := Nat.modEq_zero_iff_dvd.2 hdvd
    exact (Nat.modEq_zero_iff_dvd.2 (dvd_pow hdvd (Nat.succ_ne_zero _))).trans hzero.symm
  · have hone : v ^ (p - 1) ≡ 1 [MOD p] := Nat.ModEq.pow_card_sub_one_eq_one hp ((hp.coprime_iff_not_dvd.2 hdvd).symm)
    calc v ^ ((p - 1) * k + 1) = (v ^ (p - 1)) ^ k * v := by rw [pow_succ, pow_mul]
      _ ≡ 1 ^ k * v [MOD p] := (hone.pow k).mul_right v
      _ = v := by rw [one_pow, one_mul]

section RoundTrip

variable {k : KeyRegs}

theorem KeyInv.n_ne_zero (hk : KeyInv k) : k.n.toNat ≠ 0 := by
  have := hk.large
  omega

theorem KeyInv.e_ne_zero (hk : KeyInv k) : k.e.toNat ≠ 0 := by
  have := hk.eRange
  omega

theorem KeyInv.d_ne_zero (hk : KeyInv k) : k.d.toNat ≠ 0 := fun h0 => by
  simpa [h0] using hk.inverse

/-- e · d is 1 more than a multiple of φ, so the power is the identity modulo p and modulo q, and so modulo n. -/
theorem KeyInv.pow_modEq_self (hk : KeyInv k) (v : Nat) : v ^ (k.e.toNat * k.d.toNat) ≡ v [MOD k.n.toNat] := by
  obtain ⟨m, hm⟩ : ∃ m, k.e.toNat * k.d.toNat = (k.p.toNat - 1) * (k.q.toNat - 1) * m + 1 :=
    ⟨_, by rw [← hk.totient, ← hk.inverse, Nat.div_add_mod]⟩
  rw [hk.modulus, ← Nat.modEq_and_modEq_iff_modEq_mul ((Nat.coprime_primes hk.primeP hk.primeQ).2 hk.distinct), hm]
  constructor
  · rw [mul_assoc]
    exact pow_modEq_self_of_prime hk.primeP v _
  · rw [mul_comm (k.p.toNat - 1), mul_assoc]
    exact pow_modEq_self_of_prime hk.primeQ v _

theorem KeyInv.modExpValue_modExpValue (hk : KeyInv k) {v : Nat} (hv : v < k.n.toNat) :
    modExpValue (modExpValue v k.e.toNat k.n.toNat) k.d.toNat k.n.toNat = v := by
  rw [modExpValue_eq_pow_mod _ _ _ hk.d_ne_zero, modExpValue_eq_pow_mod _ _ _ hk.e_ne_zero, ← Nat.pow_mod, ← pow_mul]
  exact Nat.mod_eq_of_modEq (hk.pow_modEq_self v) hv

/-- R195: a value stored by `ENCRYPT` is below n. -/
theorem KeyInv.ciphertext_lt (hk : KeyInv k) (v : Nat) :
    (wordOf (modExpValue v k.e.toNat k.n.toNat)).toNat < k.n.toNat := by
  rw [wordOf_modExpValue_toNat v hk.n_ne_zero hk.e_ne_zero]
  exact Nat.mod_lt _ (Nat.pos_of_ne_zero hk.n_ne_zero)

/-- Every byte is below n, so what `DECRYPT` stores for its ciphertext is the byte (R194). -/
theorem KeyInv.decrypted_byte (hk : KeyInv k) (b : Byte) :
    wordOf (modExpValue (wordOf (modExpValue b.toNat k.e.toNat k.n.toNat)).toNat k.d.toNat k.n.toNat) =
      b.setWidth 64 := by
  have hb : b.toNat < k.n.toNat := by
    have := hk.large
    omega
  rw [wordOf_modExpValue_toNat _ hk.n_ne_zero hk.e_ne_zero, ← modExpValue_eq_pow_mod _ _ _ hk.e_ne_zero,
    hk.modExpValue_modExpValue hb]
  exact BitVec.ofNat_toNat 64 b

end RoundTrip

/-- Settles O45, by the round trip of values; the entries `ENCRYPT` stored are the written ones `DECRYPT` reads. -/
theorem roundTripRecoversTheMessage : Obligations.RoundTripRecoversTheMessage := by
  refine ⟨fun k hk v hv => hk.modExpValue_modExpValue hv, fun s hk hv hl hw => ?_⟩
  obtain ⟨ct, hx, hst⟩ := exec_encrypt_of_written hv hl hw
  refine ⟨_, hx, fun t' hkeys hv' hcfg hct hlen => ?_⟩
  simp only [complete_keys, complete_cfg, complete_mem] at hkeys hcfg hct
  have hlen' : t'.opndLen = s.opndLen := congrArg BitVec.toNat hlen
  have hw' : ∀ i, i < t'.opndLen → (bufGet t'.mem.ct i).isSome := fun i hi => by
    rw [hlen'] at hi
    obtain ⟨b, hb⟩ := Option.isSome_iff_exists.1 (hw i hi)
    rw [hct, hst.below hi hb, Option.isSome_some]
  obtain ⟨dec, hx', hst'⟩ := exec_decrypt_of_written hv' (by rwa [hlen', hcfg]) hw'
  refine ⟨_, hx', rfl, fun i b hi hb => ?_⟩
  have hc : bufGet t'.mem.ct i = some (wordOf (modExpValue b.toNat t'.keys.e.toNat t'.keys.n.toNat)) := by
    rw [hct, hkeys, hst.below hi hb]
  exact (hst'.below (hi.trans_eq hlen'.symm) hc).trans (congrArg some ((hkeys ▸ hk : KeyInv t'.keys).decrypted_byte b))

/-- Settles O46: an entry that `ENCRYPT` stores is a remainder modulo n. -/
theorem ciphertextIsBelowTheModulus : Obligations.CiphertextIsBelowTheModulus := by
  intro s hk hv hl hw
  obtain ⟨ct, hx, hst⟩ := exec_encrypt_of_written hv hl hw
  refine ⟨_, hx, fun i hi => ?_⟩
  obtain ⟨b, hb⟩ := Option.isSome_iff_exists.1 (hw i hi)
  exact ⟨_, hst.below hi hb, hk.ciphertext_lt b.toNat⟩

/-- Settles O47: an entry either loop stores is a function of the input entry and the key. -/
theorem cipherEntriesAreIndependent : Obligations.CipherEntriesAreIndependent := by
  refine fun s s' t t' i hkeys hi hi' hok hok' => ⟨fun hx hx' hin => ?_, fun hx hx' hin => ?_⟩
  · obtain ⟨-, ct, hrun, rfl⟩ := exec_encrypt_ok hx hok
    obtain ⟨-, ct', hrun', rfl⟩ := exec_encrypt_ok hx' hok'
    obtain ⟨b, hb, hout⟩ := encryptLoop_ok_entry hrun hi
    obtain ⟨b', hb', hout'⟩ := encryptLoop_ok_entry hrun' hi'
    obtain rfl : b = b' := Option.some.inj (hb.symm.trans (hin.trans hb'))
    simp only [State.opndKeyE, State.opndKeyN, hkeys] at hout
    exact hout.trans hout'.symm
  · obtain ⟨-, dec, hrun, rfl⟩ := exec_decrypt_ok hx hok
    obtain ⟨-, dec', hrun', rfl⟩ := exec_decrypt_ok hx' hok'
    obtain ⟨c, hc, hout⟩ := decryptLoop_ok_entry hrun hi
    obtain ⟨c', hc', hout'⟩ := decryptLoop_ok_entry hrun' hi'
    obtain rfl : c = c' := Option.some.inj (hc.symm.trans (hin.trans hc'))
    simp only [State.opndKeyD, State.opndKeyN, hkeys] at hout
    exact hout.trans hout'.symm

end Sys2Proof.Machine
end

section
/-! SUPPORT. Proofs of the statements about outcomes and the interrupt (60_exceptions.md): the error codes, what an error
completion leaves unchanged, and what raises and clears `DONE_PEND`. -/

namespace Sys2Proof.Machine

/-! ## Error codes and error completions (R200 to R202) -/

/-- No outcome has a code above 0x0A (R200). -/
theorem errCode_bits_le (c : ErrCode) : c.bits.toNat ≤ 0x0A := by cases c <;> decide

/-- Settles O15: the table, read off the definition, and its upper bound. -/
theorem errorCodesMatchTheTable : Obligations.ErrorCodesMatchTheTable :=
  ⟨rfl, rfl, rfl, rfl, rfl, rfl, rfl, rfl, rfl, rfl, rfl, errCode_bits_le⟩

/-- R38 to R40: only a success of a cipher command writes a buffer. -/
theorem execNext_mem {i : Instr} {s t : State} (h : ExecNext i s t) :
    t.mem = s.mem ∨ (t.status.errcode = .ok ∧ (i = .encrypt ∨ i = .decrypt)) := by
  cases h with
  | encrypted _ hi => exact .inr ⟨rfl, .inl hi⟩
  | decrypted _ hi => exact .inr ⟨rfl, .inr hi⟩
  | _ => exact .inl rfl

/-- Settles O48: what writes `RES` or a buffer is a success, and what writes the key registers is a key generation. -/
theorem errorsLeaveResultsUnchanged : Obligations.ErrorsLeaveResultsUnchanged := by
  intro i s t _ h _ herr
  have hx := exec_next h
  refine ⟨?_, entriesKept_of_mem_eq ?_, fun ⟨hr, hf⟩ => ?_⟩
  · exact (execNext_res hx).resolve_right fun hok => herr hok.1
  · exact (execNext_mem hx).resolve_right fun hok => herr hok.1
  · exact (execNext_keysKept hx).resolve_right fun hi => hi.elim hr hf

/-! ## The interrupt's one source (R208, R209) -/

/-- The next step is a host write to `IRQ_STATUS` with bit 0 set (R32, R207). -/
def AcknowledgeNext (s : State) : Prop :=
  ∃ v : Word, v.getLsbD 0 = true ∧ s.inputs.head? = some (.host (.write Reg.irqStatus.offset v))

/-- What a step does to `DONE_PEND`: it keeps it, unless it is the end of a command, an acknowledgement or a reset. -/
inductive PendingEffect (s t : State) : Prop
  | kept (hd : t.donePend = s.donePend)
  | raised (he : SequencerNext s) (hs : s.seq = .run) (ht : t.seq = .idle) (hd : t.donePend = true)
  | cleared (hc : ResetNext s ∨ AcknowledgeNext s) (hd : t.donePend = false)

section Pending

variable {s u t : State}

theorem rngAnswer_donePend (u : State) (v : Word) : (u.rngAnswer v).donePend = u.donePend := by
  cases h : u.awaitsDraw with
  | false => rw [rngAnswer_of_not_awaitsDraw h]
  | true => rw [rngAnswer_of_awaitsDraw h]

theorem pendingEffect_of_execNext {i : Instr} (hd : u.donePend = s.donePend) (he : SequencerNext s) (hs : s.seq = .run)
    (h : ExecNext i u t) : PendingEffect s t := by
  obtain ⟨-, rfl, -⟩ | ⟨code, hend⟩ := execNext_waits_or_ended h
  · exact .kept hd
  · obtain ⟨-, -, -, -, -, ht, hpend⟩ := hend
    exact .raised he hs ht hpend

theorem pendingEffect_of_writeReg {r : Reg} {v : Word} (hd : u.donePend = s.donePend)
    (he : s.inputs.head? = some (.host (.write r.offset v))) (h : WriteRegNext u v r t) : PendingEffect s t := by
  cases h with
  | softReset hv => exact .cleared (.inl (.inr ⟨v, hv, he⟩)) rfl
  | acknowledge hv => exact .cleared (.inr ⟨v, hv, he⟩) rfl
  | _ => exact .kept hd

theorem pendingEffect_of_writeTarget {off : Offset} {v : Word} {tgt : Target} (hd : u.donePend = s.donePend)
    (he : s.inputs.head? = some (.host (.write off v))) (hl : locate u.cfg off = .ok tgt)
    (h : WriteTargetNext u v tgt t) : PendingEffect s t := by
  cases h with
  | reg r _ hr =>
    obtain rfl := offset_of_locate_reg hl
    exact pendingEffect_of_writeReg hd he hr
  | _ => exact .kept hd

theorem pendingEffect_of_stepNext (hd : u.donePend = s.donePend) (hs : u.seq = s.seq) (h : StepNext s u t) :
    PendingEffect s t := by
  cases h with
  | command i _ he hrun _ hx => exact pendingEffect_of_execNext hd he (hs.symm.trans hrun) hx
  | illegal _ he hrun => exact .raised he (hs.symm.trans hrun) rfl rfl
  | write v off tgt he hl =>
    exact pendingEffect_of_writeTarget (u := { u with busResp := none }) hd he hl (writeTarget_next _ v tgt)
  | answer v => exact .kept ((rngAnswer_donePend u v).trans hd)
  | hardReset he => exact .cleared (.inl (.inl he)) rfl
  | idle | read | readFree => exact .kept hd

end Pending

/-- Every step is of one of the kinds of `PendingEffect`. -/
theorem step_pendingEffect {s t : State} (h : step s = .next t) : PendingEffect s t :=
  pendingEffect_of_stepNext (u := { s with inputs := s.inputs.tail }) rfl rfl (step_next h)

/-- Settles O22, by the three kinds of step. -/
theorem completionIsTheOnlyInterruptSource : Obligations.CompletionIsTheOnlyInterruptSource := by
  refine ⟨fun _ => rfl, fun s t h => ?_⟩
  cases step_pendingEffect h with
  | kept hd => exact ⟨fun h0 h1 => (by simp [hd, h0] at h1), fun h1 h0 => (by simp [hd, h1] at h0)⟩
  | raised he hs ht hd => exact ⟨fun _ _ => ⟨he, hs, ht⟩, fun _ h0 => (by simp [hd] at h0)⟩
  | cleared hc hd => exact ⟨fun _ h1 => (by simp [hd] at h1), fun _ _ => hc⟩

end Sys2Proof.Machine
end

section
/-! SUPPORT. Proofs of the statements about the resets and about what completes (70_reset_and_hazards.md). -/

namespace Sys2Proof.Machine

/-! ## The registers after a reset (R230 to R232) -/

/-- `t` is the state after reset but for what a reset step keeps or leaves free: the parameters, the buffers, the latches,
the counter of free values and the coming events (R230, R231). -/
def RegistersReset (t : State) : Prop :=
  t = { State.reset with cfg := t.cfg, mem := t.mem, latch := t.latch, freeCtr := t.freeCtr, inputs := t.inputs }

theorem registersReset_resetRegisters (s : State) (m : Memory) : RegistersReset (s.resetRegisters m) := rfl

theorem statusReset_word : Status.reset.word = 0#64 := by decide

section AfterReset

variable {t : State}

theorem RegistersReset.status (h : RegistersReset t) : t.status = Status.reset := by rw [h]; rfl

theorem RegistersReset.seq (h : RegistersReset t) : t.seq = .idle := by rw [h]; rfl

theorem RegistersReset.irq (h : RegistersReset t) : t.irq = false := by rw [h]; rfl

theorem RegistersReset.readReg (h : RegistersReset t) (r : Reg) :
    t.readReg r = if r = .id then 0x5253415F434F5245#64 else if r = .cfg then cfgWord t.cfg else 0#64 := by
  rw [h]
  cases r with
  | status => exact statusReset_word
  | ctrl | irqStatus => exact bitWord_eq false
  | _ => rfl

/-- The hard reset, a `CTRL` write with bit 1 set, and the state after reset (R230, R231, R233). -/
theorem registersReset_of_reset {s : State}
    (h : (∃ l, step { s with inputs := .hardReset :: l } = .next t) ∨
      (∃ l v, v.getLsbD 1 = true ∧ step { s with inputs := .host (.write 0x010#18 v) :: l } = .next t) ∨
      t = State.reset) : RegistersReset t := by
  obtain ⟨l, hs⟩ | ⟨l, v, hv, hs⟩ | rfl := h
  · cases hs
    exact registersReset_resetRegisters _ _
  · have hw := step_write_reg { s with inputs := l } v .ctrl
    rw [writeReg_ctrl_of_bit1_set _ hv] at hw
    cases hw.symm.trans hs
    exact registersReset_resetRegisters _ _
  · rfl

end AfterReset

section Idle

variable {s : State}

/-- An idle block asks for no draw (R172). -/
theorem awaitsDraw_of_idle (hb : s.status.busy = false) : s.awaitsDraw = false := by
  simp [State.awaitsDraw, inFlight_eq_false (.inl hb)]

theorem exec_cipher_of_no_key {i : Instr} (hi : i = .encrypt ∨ i = .decrypt) (hk : s.status.keyValid = false) :
    exec i s = .next (s.complete .noKey) := by
  obtain rfl | rfl := hi
  · exact (exec_encrypt_eq s).trans (cipherEnd_of_no_key _ hk)
  · exact (exec_decrypt_eq s).trans (cipherEnd_of_no_key _ hk)

/-- A cipher command issued to an idle block without a key ends with `NO_KEY` (R193). -/
theorem issuedAndEnded_noKey {i : Instr} (hi : i = .encrypt ∨ i = .decrypt) (hb : s.status.busy = false)
    (hk : s.status.keyValid = false) : ∃ t, IssuedAndEnded s (encode i) t ∧ t.status.errcode = .noKey :=
  ⟨_, issuedAndEnded_of_accept hb ((sequencerTurn_accept _ i).trans (exec_cipher_of_no_key hi hk)), rfl⟩

end Idle

/-- Settles O27: what either reset leaves reads as `State.reset`, idle and without a key. -/
theorem resetRegistersReadSpecValues : Obligations.ResetRegistersReadSpecValues := by
  intro s t h
  have ht := registersReset_of_reset h
  have hb : t.status.busy = false := by rw [ht.status]; rfl
  have hk : t.status.keyValid = false := by rw [ht.status]; rfl
  refine ⟨ht.readReg, ht.irq, ht.seq, fun w hw => ?_⟩
  obtain ⟨i, hi, rfl⟩ : ∃ i : Instr, (i = .encrypt ∨ i = .decrypt) ∧ w = encode i :=
    hw.elim (fun h => ⟨.encrypt, .inl rfl, h⟩) (fun h => ⟨.decrypt, .inr rfl, h⟩)
  obtain ⟨x, ⟨u, hissue, hend⟩, hcode⟩ := issuedAndEnded_noKey hi hb hk
  exact ⟨u, x, hissue, hend, hcode⟩

/-- Settles O28: the buffers are the empty ones, and the idle block asks for no draw. -/
theorem hardResetForgetsTheBuffers : Obligations.HardResetForgetsTheBuffers := fun s =>
  ⟨s.hardReset, rfl, fun _ => ⟨rfl, rfl, rfl⟩, (registersReset_resetRegisters s _).readReg, rfl, rfl, rfl, rfl,
    fun v => congrArg _ (rngAnswer_of_not_awaitsDraw (awaitsDraw_of_idle rfl) v)⟩

/-! ## The buffers after a soft reset (R231) -/

/-- The latched word decodes to at most one command. -/
theorem inFlight_unique {s : State} {i j : Instr} (hi : s.inFlight i = true) (hj : s.inFlight j = true) : i = j := by
  obtain ⟨-, hi⟩ := (inFlight_eq_true_iff s i).1 hi
  obtain ⟨-, hj⟩ := (inFlight_eq_true_iff s j).1 hj
  exact Decoded.command.inj (hi.symm.trans hj)

section SoftReset

variable (s : State)

theorem softResetMemory_msg : s.softResetMemory.msg = s.mem.msg := by
  unfold State.softResetMemory
  split_ifs <;> rfl

theorem softResetMemory_ct :
    s.softResetMemory.ct = if s.inFlight .encrypt then bufForget s.mem.ct s.opndLen else s.mem.ct := by
  unfold State.softResetMemory
  split_ifs <;> rfl

theorem softResetMemory_dec :
    s.softResetMemory.dec = if s.inFlight .decrypt then bufForget s.mem.dec s.opndLen else s.mem.dec := by
  unfold State.softResetMemory
  split_ifs with he hd
  · cases inFlight_unique he hd
  all_goals rfl

/-- The entries of an output buffer that is forgotten below LLEN if the command `i` is in flight. -/
theorem bufGet_forget_of_inFlight {α : Type} (i : Instr) (b : List (Nat × α)) (n j : Nat) :
    bufGet (if s.inFlight i then bufForget b n else b) j =
      if s.status.busy = true ∧ decode s.latch.lw = .command i ∧ j < n then none else bufGet b j := by
  simp only [← and_assoc, ← inFlight_eq_true_iff]
  cases s.inFlight i with
  | false => simp
  | true => simp [bufGet_bufForget]

end SoftReset

/-- Settles O29: the registers are reset, and only the output buffer of a cipher command in flight loses entries. -/
theorem softResetKeepsTheBuffers : Obligations.SoftResetKeepsTheBuffers := by
  intro s v hv
  refine ⟨State.softReset { s with busResp := none }, ?_, (registersReset_resetRegisters _ _).readReg, rfl, rfl, rfl,
    awaitsDraw_of_idle rfl, rfl, fun i => ⟨?_, ?_, ?_⟩⟩
  · exact (step_write_reg s v .ctrl).trans (congrArg _ (writeReg_ctrl_of_bit1_set _ hv))
  · exact congrArg (bufGet · i) (softResetMemory_msg { s with busResp := none })
  · exact (congrArg (bufGet · i) (softResetMemory_ct { s with busResp := none })).trans
      (bufGet_forget_of_inFlight _ .encrypt _ _ i)
  · exact (congrArg (bufGet · i) (softResetMemory_dec { s with busResp := none })).trans
      (bufGet_forget_of_inFlight _ .decrypt _ _ i)

/-- Settles O52, by the invariant of the registers as reset leaves them, over empty buffers. -/
theorem invariantHoldsAtReset : Obligations.InvariantHoldsAtReset := fun _ => inv_of_initial

/-! ## What completes (R247) -/

section Completes

variable {s : State}

/-- A cipher command whose loop meets no unwritten entry, if its checks let the loop run, answers a next state (R193). -/
theorem exists_cipherEnd_next {run : Except Fault Memory}
    (hrun : s.status.keyValid = true → s.opndLen ≤ s.cfg.msgMax → ∃ m, run = .ok m) : ∃ t, s.cipherEnd run = .next t := by
  cases hk : s.status.keyValid with
  | false => exact ⟨_, cipherEnd_of_no_key run hk⟩
  | true =>
    rcases Nat.lt_or_ge s.cfg.msgMax s.opndLen with hl | hl
    · exact ⟨_, cipherEnd_of_long run hk hl⟩
    · obtain ⟨m, rfl⟩ := hrun hk hl
      exact ⟨_, cipherEnd_of_ok hk hl⟩

theorem exists_encryptRun_ok (hw : ∀ i, i < s.opndLen → (bufGet s.mem.msg i).isSome) : ∃ m, s.encryptRun = .ok m := by
  obtain ⟨ct, hrun, -⟩ := encryptLoop_of_written (exp := s.opndKeyE) (n := s.opndKeyN) s.mem.ct hw
  exact ⟨_, by rw [State.encryptRun, hrun]; rfl⟩

theorem exists_decryptRun_ok (hw : ∀ i, i < s.opndLen → (bufGet s.mem.ct i).isSome) : ∃ m, s.decryptRun = .ok m := by
  obtain ⟨dec, hrun, -⟩ := decryptLoop_of_written (exp := s.opndKeyD) (n := s.opndKeyN) s.mem.dec hw
  exact ⟨_, by rw [State.decryptRun, hrun]; rfl⟩

theorem exists_exec_modinv_next (s : State) : ∃ t, exec .modinv s = .next t := by
  by_cases h1 : s.opndB = 1
  · exact ⟨_, exec_modinv_of_modulus_one h1⟩
  by_cases h0 : s.opndB = 0
  · exact ⟨_, exec_modinv_of_modulus_zero h0⟩
  by_cases hg : Nat.gcd s.opndA s.opndB = 1
  · exact ⟨_, exec_modinv_of_coprime h1 h0 hg⟩
  · exact ⟨_, exec_modinv_of_not_coprime h1 h0 hg⟩

theorem exists_exec_modexp_next (s : State) : ∃ t, exec .modexp s = .next t := by
  by_cases h0 : s.opndC = 0
  · exact ⟨_, exec_modexp_of_modulus_zero h0⟩
  · exact ⟨_, exec_modexp_of_modulus_ne_zero h0⟩

theorem exists_exec_keygenRand_next (s : State) : ∃ t, exec .keygenRand s = .next t := by
  cases h : s.drawResult with
  | waiting => exact ⟨_, exec_keygenRand_of_waiting h⟩
  | failed code drawn p => exact ⟨_, exec_keygenRand_of_failed h⟩
  | primes p q drawn => exact ⟨_, exec_keygenRand_of_primes h⟩

theorem exists_exec_keygenForced_next (s : State) : ∃ t, exec .keygenForced s = .next t := by
  by_cases h : ForcedPrimes s.opndA s.opndB
  · exact ⟨_, exec_keygenForced_of_accepted h⟩
  · exact ⟨_, exec_keygenForced_of_rejected h⟩

/-- Only a cipher command that reads an unwritten entry faults (R48); every other command answers a next state. -/
theorem exists_exec_next (i : Instr)
    (he : i = .encrypt → s.status.keyValid = true → s.opndLen ≤ s.cfg.msgMax →
      ∀ j, j < s.opndLen → (bufGet s.mem.msg j).isSome)
    (hd : i = .decrypt → s.status.keyValid = true → s.opndLen ≤ s.cfg.msgMax →
      ∀ j, j < s.opndLen → (bufGet s.mem.ct j).isSome) : ∃ t, exec i s = .next t := by
  cases i with
  | nop | primeTest | gcd => exact ⟨_, rfl⟩
  | modinv => exact exists_exec_modinv_next s
  | modexp => exact exists_exec_modexp_next s
  | keygenRand => exact exists_exec_keygenRand_next s
  | keygenForced => exact exists_exec_keygenForced_next s
  | encrypt =>
    rw [exec_encrypt_eq]
    exact exists_cipherEnd_next fun hk hl => exists_encryptRun_ok (he rfl hk hl)
  | decrypt =>
    rw [exec_decrypt_eq]
    exact exists_cipherEnd_next fun hk hl => exists_decryptRun_ok (hd rfl hk hl)

/-- A command in flight that answers a next state and asks for no draw ends there. -/
theorem ended_of_exec_next {i : Instr} {t : State} (hb : s.status.busy = true) (hdec : decode s.latch.lw = .command i)
    (hw : i = .keygenRand → s.awaitsDraw = false) (h : exec i s = .next t) : ∃ code, Ended s t code := by
  refine (execNext_waits_or_ended (exec_next h)).resolve_left ?_
  rintro ⟨rfl, -, hwait⟩
  have hask : s.awaitsDraw = true := (awaitsDraw_eq_true_iff s).2 ⟨(inFlight_eq_true_iff s _).2 ⟨hb, hdec⟩, hwait⟩
  exact Bool.false_ne_true ((hw rfl).symm.trans hask)

end Completes

/-- Settles O56: an illegal word is completed with `BAD_CMD`, and a command ends in the next state it answers. -/
theorem sequencerTurnEndsTheCommand : Obligations.SequencerTurnEndsTheCommand := by
  intro s hb hs hw he hd
  obtain ⟨t, code, hturn, hend⟩ : ∃ t code, s.sequencerTurn = .next t ∧ Ended s t code := by
    cases hdec : decode s.latch.lw with
    | illegal why =>
      exact ⟨_, _, sequencerTurn_of_illegal hs (exists_decode_illegal_iff.1 ⟨why, hdec⟩), complete_ended s _⟩
    | command i =>
      rw [hdec, Decoded.command.injEq] at hw he hd
      obtain ⟨t, hx⟩ := exists_exec_next i he hd
      obtain ⟨code, hend⟩ := ended_of_exec_next hb hdec hw hx
      exact ⟨t, code, (sequencerTurn_of_command hs hdec).trans hx, hend⟩
  obtain ⟨hbusy, hdone, -, -, -, hidle, hpend⟩ := hend
  exact ⟨t, hturn, hbusy, hdone, hidle, hpend⟩

end Sys2Proof.Machine
end
